-- ==== Sys2Proof/Word.lean ====
section
/-! DEFINITION. The data types of the AES core: bytes, words, blocks, the key register, the key schedule and
offsets of the register space (spec/00_scope.md R8, spec/10_state.md R11). -/

namespace Sys2Proof

/-- R8: a byte is an 8-bit unsigned value, bit 7 the most significant. -/
abbrev Byte := BitVec 8

/-- R8: a word is a sequence of 4 bytes `[w0, w1, w2, w3]`, never a 32-bit integer (R35). -/
abbrev Word := Vector Byte 4

/-- R8, R22: a block and a cipher state are sequences of 16 bytes; byte `4*c + r` is row `r`, column `c`. -/
abbrev Block := Vector Byte 16

/-- R14: the key register, 32 bytes. -/
abbrev KeyReg := Vector Byte 32

/-- R23: the key schedule memory, 60 words of 4 bytes. -/
abbrev Schedule := Vector Word 60

/-- R29: an offset of the 128-byte register space, 0x00 to 0x7F. -/
abbrev Offset := Fin 128

/-- The word of four zero bytes. -/
def zeroWord : Word := #v[0x00, 0x00, 0x00, 0x00]

/-- The block of sixteen zero bytes. -/
def zeroBlock : Block := Vector.replicate 16 0x00

/-- The key register of thirty-two zero bytes. -/
def zeroKey : KeyReg := Vector.replicate 32 0x00

/-- The schedule of sixty zero words. -/
def zeroSchedule : Schedule := Vector.replicate 60 zeroWord

end Sys2Proof
end

