-- ==== Sys2Proof/Syntax.lean ====
section
/-! DEFINITION. The instructions of the core: the two commands of spec/opcode_table.json. -/

namespace Sys2Proof

/-- The commands a host can issue (spec/30_encoding.md R46). Both take the same implicit operands (R48), so
neither constructor has a field: a command has no register, immediate, function or mode field (R45). -/
inductive Instr where
  /-- `CIPHER`, opcode 0x01: encrypt one block (R95). -/
  | cipher
  /-- `INVCIPHER`, opcode 0x02: decrypt one block (R96). -/
  | invcipher
deriving DecidableEq, Repr

end Sys2Proof
end

