-- ==== Sys2Proof/Machine/HostNotation.lean ====
section
/-! DEFINITION. The host's side of the interface: the registers it names, the actions it performs, the two
agents, and the pseudo-operations of the host notation (spec/30_encoding.md R53, R54). -/

namespace Sys2Proof.Machine

/-- R53: the registers a host operation can name, with the element for the three byte-array registers. -/
inductive Reg where
  | cmd
  | status
  | nk
  | nr
  | din (i : Fin 16)
  | key (i : Fin 32)
  | dout (i : Fin 16)
deriving DecidableEq, Repr

/-- What the outside world can do to the core, one action at a time (R36, R41, R53, R54, R123). -/
inductive HostAction where
  /-- `MemRead(o, 1)`: a read of the one byte at offset `o` (R38). -/
  | rd (o : Offset)
  /-- `MemWrite(o, 1, v)`: a write of byte `v` at offset `o` (R39). -/
  | wr (o : Offset) (v : Byte)
  /-- `POLL`: read `STATUS` again until the value read has bit 0 (`BUSY`) = 0 (R54). -/
  | poll
  /-- The reset input is applied (R123). -/
  | reset
deriving DecidableEq, Repr

/-- R41: the two agents. -/
inductive Agent where
  | host
  | core
deriving DecidableEq, Repr

/-- R53, R54: one line of a host program. Hex strings are given as their bytes, byte 0 first (R8). -/
inductive HostOp where
  | wr (r : Reg) (v : Byte)
  | rd (r : Reg)
  | ldblk (h : List Byte)
  | ldkey (h : List Byte)
  | setsize (nk nr : Byte)
  | cipher
  | invcipher
  | poll
  | rdout
deriving DecidableEq, Repr

end Sys2Proof.Machine
end

