-- ==== Sys2Proof/WellFormed.lean ====
section
/-! DEFINITION. Well-formedness of instructions and of the lines of a host program. -/

namespace Sys2Proof

/-- Every command is well formed: the command format has no operand field that could hold an illegal value
(spec/30_encoding.md R45, R51); the legality of the implicit operands is the machine's own check (R93). -/
def Instr.wf : Instr → Bool
  | .cipher => true
  | .invcipher => true

/-- R54: `LDBLK` takes 32 hex digits; `LDKEY` takes 32, 48 or 64. The other lines carry nothing to check: a
register's element index is in range by its type. -/
def Machine.HostOp.wf : Machine.HostOp → Bool
  | .wr _ _ => true
  | .rd _ => true
  | .ldblk h => h.length == 16
  | .ldkey h => h.length == 16 || h.length == 24 || h.length == 32
  | .setsize _ _ => true
  | .cipher => true
  | .invcipher => true
  | .poll => true
  | .rdout => true

end Sys2Proof
end

