-- ==== Sys2Proof/Decode.lean ====
section
/-! DEFINITION. The command decoder and encoder (spec/30_encoding.md R45, R46, R50, R51). -/

namespace Sys2Proof

/-- One row of the opcode map of R46. -/
structure OpcodeRow where
  pattern : Byte
  mask : Byte
  instr : Instr
deriving DecidableEq, Repr

/-- R46: the opcode map. -/
def opcodeTable : List OpcodeRow :=
  [⟨0x01, 0xFF, .cipher⟩, ⟨0x02, 0xFF, .invcipher⟩]

/-- Why a byte sequence is no command. -/
inductive DecodeError where
  /-- There is no byte to decode. -/
  | noByte
  /-- R50: an opcode other than 0x01 and 0x02. -/
  | illegalOpcode (v : Byte)
deriving DecidableEq, Repr

/-- What the decoder answers. -/
inductive Decoded (α : Type) where
  | command (a : α)
  | rejected (e : DecodeError)
deriving DecidableEq, Repr

/-- R46: a byte `v` selects a row when `v & mask = match`; R51: decoding depends on the opcode alone. -/
def decodeOpcode (v : Byte) : Decoded Instr :=
  match opcodeTable.find? (fun row => v &&& row.mask == row.pattern) with
  | some row => .command row.instr
  | none => .rejected (.illegalOpcode v)

/-- Decode the first command of a byte sequence and give the bytes after it; every command is one byte (R45). -/
def decode : List Byte → Decoded (Instr × List Byte)
  | [] => .rejected .noByte
  | v :: rest =>
    match decodeOpcode v with
    | .command i => .command (i, rest)
    | .rejected e => .rejected e

/-- R46: the opcode of a command. -/
def opcode : Instr → Byte
  | .cipher => 0x01
  | .invcipher => 0x02

/-- R45: a command is one byte, its opcode. -/
def encode (i : Instr) : List Byte := [opcode i]

/-- The byte that a word numbered as spec/opcode_table.json numbers it stands for: its bits 7:0, where every
bit at or above `nbits` is 0. -/
def tableWordByte (nbits w : Nat) : Byte := BitVec.ofNat 8 (w % 2 ^ nbits)

/-- The instruction the decoder reads from a table word. -/
def decodeTableWord (nbits w : Nat) : Option Instr :=
  match decode [tableWordByte nbits w] with
  | .command (i, _) => some i
  | .rejected _ => none

end Sys2Proof
end

