-- ==== Sys2Proof/Config.lean ====
section
/-! DEFINITION. What an implementation fixes and the spec leaves open: the open parameters (spec/00_scope.md R7,
spec/92_eei_decisions.md) and the free values of the state that reset leaves unspecified (spec/10_state.md R28). Each
is a constant with no body, so no proof can rest on its value. `LATENCY` is no constant: it is the schedule
that `State.env.sched` holds. -/

namespace Sys2Proof

/-- `BASE`: where offset 0x00 of the register space sits in the platform's address map (R29). Every address of
the model is an offset from it, so it only relabels addresses. -/
opaque Config.base : Nat

/-- `CONST_TIME`: whether a realisation's latency is independent of data (R129). No rule reads it. -/
opaque Config.constTime : Bool

/-- `KS_CACHE`: whether a realisation skips the derivation of an unchanged schedule (R92). Unobservable; the model
derives the schedule on every command, as R91 says. -/
opaque Config.ksCache : Bool

/-- Free value: `ST` after the n-th reset action (R28: unspecified). -/
opaque Config.stAfterReset : Nat → Block

/-- Free value: `KS` after the n-th reset action (R28: unspecified). -/
opaque Config.ksAfterReset : Nat → Schedule

/-- Free value: `NKL` after the n-th reset action (R28: unspecified). -/
opaque Config.nklAfterReset : Nat → Byte

/-- Free value: `NRL` after the n-th reset action (R28: unspecified). -/
opaque Config.nrlAfterReset : Nat → Byte

end Sys2Proof
end

