-- ==== Sys2Proof/Machine/State.lean ====
section
/-! DEFINITION. The state of the core (spec/10_state.md R11), the ways a step can stop, and the state after reset
(R28). -/

namespace Sys2Proof.Machine

/-- R111: the error codes of `STATUS.ERR`. -/
inductive ErrCode where
  /-- 0 `ERR_NONE` -/
  | none
  /-- 1 `ERR_KEYLEN` -/
  | keylen
  /-- 2 `ERR_ROUNDS` -/
  | rounds
  /-- 3 `ERR_CMD` -/
  | cmd
deriving DecidableEq, Repr

/-- R19: the fields of `STATUS`. Bits 7:4 are no storage: they read 0 and nothing writes them. -/
structure Status where
  busy : Bool
  done : Bool
  err : ErrCode
deriving DecidableEq, Repr

/-- R24: `SEQ.OP`. Code 3 is unused and never reached, so it has no constructor. -/
inductive SeqOp where
  | none
  | enc
  | dec
deriving DecidableEq, Repr

/-- R24: `SEQ.PHASE`. -/
inductive Phase where
  | idle
  | expand
  | init
  | sub
  | shift
  | mix
  | add
  | store
deriving DecidableEq, Repr

/-- R24: the sequencer position `SEQ = (OP, PHASE, RND)`, the place of a program counter. -/
structure SeqPos where
  op : SeqOp
  phase : Phase
  rnd : BitVec 4
deriving DecidableEq, Repr

/-- R25: `CFG = (NKL, NRL)`, the values of `NK` and `NR` latched at acceptance. -/
structure Latched where
  nkl : Byte
  nrl : Byte
deriving DecidableEq, Repr

/-- The surroundings of the core, the model's own fields and no part of the hardware (notes/assumptions 3, 4
and 6): what the host still does, which agent moves in the coming steps, what the host has read so far, and how many
times reset was applied. -/
structure Env where
  /-- The host's remaining actions, the next one first. -/
  host : List HostAction
  /-- Which agent moves in each of the coming steps. Past its end the core moves while a command is in flight
  and the host otherwise. -/
  sched : List Agent
  /-- What the host has read, oldest first: the offset and the value returned. -/
  responses : List (Offset × Byte)
  /-- How many times the reset input was applied: the argument of the free values of `Config`. -/
  resets : Nat
deriving DecidableEq, Repr

/-- R11: the state of the core, and its surroundings. `CMD` stores nothing (R18), so it has no field. -/
structure State where
  /-- R13: `DIN[0..15]` -/
  din : Block
  /-- R14: `KEY[0..31]` -/
  key : KeyReg
  /-- R15: `DOUT[0..15]` -/
  dout : Block
  /-- R16: `NK` -/
  nk : Byte
  /-- R17: `NR` -/
  nr : Byte
  /-- R19: `STATUS` -/
  status : Status
  /-- R22: `ST[0..15]`, hidden -/
  st : Block
  /-- R23: `KS[0..59][0..3]`, hidden -/
  ks : Schedule
  /-- R24: `SEQ`, hidden -/
  seq : SeqPos
  /-- R25: `CFG`, hidden -/
  cfg : Latched
  /-- The model's own: the surroundings of the core. -/
  env : Env
deriving DecidableEq, Repr

/-- Why the machine stops. Both reasons are raised by the core's own step (`coreTurn`), only in states that no run
from reset reaches; both are safe: the model stops where the spec enables no step. -/
inductive Fault where
  /-- Raised by `coreTurn`: a command is in flight and rules R100 to R104 enable no step at this `SEQ`. Safe. -/
  | noStepEnabled
  /-- Raised by `coreTurn`: a command is in flight and `CFG` is none of the three legal pairs, for which
  R87, R97 and R98 define no result (spec/93_implementation_defined.md U5). Safe. -/
  | unsupportedPair
deriving DecidableEq, Repr

/-- Why the model declines a step. -/
inductive Refusal where
  /-- Raised by `exec` for an instruction that has no meaning yet; no arm of `exec` raises it. Safe. -/
  | notModelled (mnemonic : String)
deriving DecidableEq, Repr

/-- R24: the idle sequencer position `(NONE, IDLE, 0)`. -/
def SeqPos.atRest : SeqPos := ⟨.none, .idle, 0⟩

/-- R28: `STATUS` = 0x00. -/
def Status.atReset : Status := ⟨false, false, .none⟩

/-- Nothing for the host to do, nothing scheduled, nothing read, no reset applied yet. -/
def Env.empty : Env := ⟨[], [], [], 0⟩

/-- R28: the state right after reset. `ST`, `KS` and `CFG` are unspecified there: DESIGN CHOICE zero
(notes/assumptions 5, unsafe). -/
def State.reset : State where
  din := zeroBlock
  key := zeroKey
  dout := zeroBlock
  nk := 0x00
  nr := 0x00
  status := .atReset
  st := zeroBlock
  ks := zeroSchedule
  seq := .atRest
  cfg := ⟨0x00, 0x00⟩
  env := .empty

end Sys2Proof.Machine
end

