-- ==== Sys2Proof/Machine/Flags.lean ====
section
/-! DEFINITION. The flags of the core: the three fields of `STATUS` (spec/10_state.md R19, R20), and the numeric codes
the spec gives for definiteness. The core has no arithmetic condition code (R20). -/

namespace Sys2Proof.Machine

/-- R111: the value of `STATUS.ERR`. -/
def ErrCode.code : ErrCode → BitVec 2
  | .none => 0
  | .keylen => 1
  | .rounds => 2
  | .cmd => 3

/-- R24: the code of `SEQ.OP`; nothing observes it. -/
def SeqOp.code : SeqOp → BitVec 2
  | .none => 0
  | .enc => 1
  | .dec => 2

/-- R24: the code of `SEQ.PHASE`; nothing observes it. -/
def Phase.code : Phase → BitVec 3
  | .idle => 0
  | .expand => 1
  | .init => 2
  | .sub => 3
  | .shift => 4
  | .mix => 5
  | .add => 6
  | .store => 7

/-- A flag as a one-bit number. -/
def flagBit (b : Bool) : BitVec 1 := BitVec.ofBool b

/-- R19: the byte a read of `STATUS` returns. -/
def Status.toByte (f : Status) : Byte :=
  (flagBit f.busy).setWidth 8 ^^^ ((flagBit f.done).setWidth 8 <<< 1) ^^^ (f.err.code.setWidth 8 <<< 2)

/-- R93: the first effect of every command written while idle. -/
def Status.clearDone (f : Status) : Status := { f with done := false }

/-- R20: the flags when a command is accepted. -/
def Status.accept (f : Status) : Status := { f with busy := true, err := .none }

/-- R20, R118: the flags when a command is rejected with code `e`; `BUSY` keeps its value, which is 0 there. -/
def Status.reject (f : Status) (e : ErrCode) : Status := { f with err := e }

/-- R20, R104: the flags at completion; `ERR` keeps its value. -/
def Status.complete (f : Status) : Status := { f with busy := false, done := true }

end Sys2Proof.Machine
end

