-- ==== Sys2Proof/Machine/Operands.lean ====
section
/-! DEFINITION. The register map (spec/20_memory.md R30), the assembly of a command's implicit operands
(spec/30_encoding.md R48) and the validation of the pair (Nk, Nr) (spec/44_cipher_orchestration.md R94). -/

namespace Sys2Proof.Machine

/-- R30: the offset of a register. -/
def Reg.offset : Reg → Offset
  | .cmd => 0x00
  | .status => 0x01
  | .nk => 0x02
  | .nr => 0x03
  | .din i => ⟨0x10 + i.val, by omega⟩
  | .key i => ⟨0x20 + i.val, by omega⟩
  | .dout i => ⟨0x40 + i.val, by omega⟩

/-- R30: the register at an offset; `none` at a reserved offset. -/
def regAt (o : Offset) : Option Reg :=
  if o.val = 0x00 then some .cmd
  else if o.val = 0x01 then some .status
  else if o.val = 0x02 then some .nk
  else if o.val = 0x03 then some .nr
  else if h : 0x10 ≤ o.val ∧ o.val ≤ 0x1F then some (.din ⟨o.val - 0x10, by omega⟩)
  else if h : 0x20 ≤ o.val ∧ o.val ≤ 0x3F then some (.key ⟨o.val - 0x20, by omega⟩)
  else if h : 0x40 ≤ o.val ∧ o.val ≤ 0x4F then some (.dout ⟨o.val - 0x40, by omega⟩)
  else none

/-- R29: the platform address of an offset. -/
def platformAddress (o : Offset) : Nat := Config.base + o.val

/-- R48: the operand `key: Nk*4 bytes`, the prefix `KEY[0 .. 4·Nk − 1]` (R14). -/
def operandKey (nk : Nat) (key : KeyReg) : List Byte := key.toList.take (4 * nk)

/-- R113: `NK` is 4, 6 or 8, the whole byte compared. -/
def keyLenLegal (nk : Byte) : Bool := nk == 4 || nk == 6 || nk == 8

/-- R114: `NR = NK + 6`, a sum of natural numbers (R94). -/
def roundsLegal (nk nr : Byte) : Bool := nr.toNat == nk.toNat + 6

/-- R94: the operands of a command are valid. -/
def legalPair (nk nr : Byte) : Bool := keyLenLegal nk && roundsLegal nk nr

end Sys2Proof.Machine
end

