-- ==== Sys2Proof/Machine/Ops.lean ====
section
/-! DEFINITION. The operations the meanings and the step share: acceptance and rejection of a command, reads and writes
of the register space, reset, and the host's queue. -/

namespace Sys2Proof.Machine

/-! ### Commands -/

/-- R93: `STATUS.DONE <- 0`, done before any check. -/
def clearDone (s : State) : State := { s with status := s.status.clearDone }

/-- R118: `raise Error(code)`, the core's one way to take an exception. It writes `STATUS.ERR` and nothing else: there
is no handler, no vector and no saved context (R110). There is no return operation either: the code stays until the
next command written while idle overwrites it, or until reset (R119). -/
def raiseError (e : ErrCode) (s : State) : State := { s with status := s.status.reject e }

/-- R93: the accepting path; nothing but `STATUS`, `CFG` and `SEQ` changes. -/
def acceptCommand (op : SeqOp) (s : State) : State :=
  { s with status := s.status.accept, cfg := ⟨s.nk, s.nr⟩, seq := ⟨op, .expand, 0⟩ }

/-- R93 for a legal opcode: the checks of `NK` and then `NR`, the first that fails deciding the outcome. -/
def validateAndAccept (op : SeqOp) (s : State) : State :=
  if keyLenLegal s.nk then
    if roundsLegal s.nk s.nr then acceptCommand op s else raiseError .rounds s
  else raiseError .keylen s

/-- R39, R117: a write made while `STATUS.BUSY` = 1 is ignored, `CMD` included. -/
def whenIdle (f : State → State) (s : State) : State := if s.status.busy then s else f s

/-- R93, R117: a legal opcode is written to `CMD`; `op` is the direction it selects. -/
def startCommand (op : SeqOp) (s : State) : State :=
  whenIdle (fun s => validateAndAccept op (clearDone s)) s

/-- R93, R112: an illegal opcode is written to `CMD`. -/
def rejectOpcode (s : State) : State := whenIdle (fun s => raiseError .cmd (clearDone s)) s

/-! ### The register space -/

/-- R38: the value a read of offset `o` returns. A read has no effect on the core. -/
def readOffset (o : Offset) (s : State) : Byte :=
  match regAt o with
  | some .cmd => 0x00
  | some .status => s.status.toByte
  | some .nk => s.nk
  | some .nr => s.nr
  | some (.din i) => s.din[i]
  | some (.key i) => s.key[i]
  | some (.dout i) => s.dout[i]
  | none => 0x00

/-- R39: a write of byte `v` at offset `o`; `command` is what a write of `CMD` does (R93). -/
def memWrite (command : Byte → State → Host.Outcome State Fault Refusal) (o : Offset) (v : Byte) (s : State) :
    Host.Outcome State Fault Refusal :=
  if s.status.busy then .next s
  else
    match regAt o with
    | some .cmd => command v s
    | some .nk => .next { s with nk := v }
    | some .nr => .next { s with nr := v }
    | some (.din i) => .next { s with din := s.din.set i v }
    | some (.key i) => .next { s with key := s.key.set i v }
    | some .status => .next s
    | some (.dout _) => .next s
    | none => .next s

/-! ### Reset -/

/-- R123, R124: the reset input is applied, at any time. `ST`, `KS` and `CFG` are unspecified afterwards (R28): they
take free values, fresh at every reset (notes/assumptions 6). The surroundings keep what they hold. -/
def resetCore (s : State) : State :=
  { State.reset with
    st := Config.stAfterReset s.env.resets
    ks := Config.ksAfterReset s.env.resets
    cfg := ⟨Config.nklAfterReset s.env.resets, Config.nrlAfterReset s.env.resets⟩
    env := { s.env with resets := s.env.resets + 1 } }

/-! ### The surroundings -/

/-- Whether a command is in flight: `SEQ.OP ≠ NONE` (R21, R24). -/
def inFlight (s : State) : Bool := s.seq.op != .none

/-- R41: the agent that moves in this step: the schedule's choice, and past its end the core while a command is in
flight and the host otherwise (notes/assumptions 3). -/
def nextAgent (s : State) : Agent :=
  match s.env.sched with
  | a :: _ => a
  | [] => if inFlight s then .core else .host

/-- The state with this step's entry of the schedule consumed. -/
def popTurn (s : State) : State := { s with env := { s.env with sched := s.env.sched.tail } }

/-- The state with the host's next action consumed. -/
def popAction (s : State) : State := { s with env := { s.env with host := s.env.host.tail } }

/-- The host receives `v` as the answer to its read of offset `o`. -/
def respond (o : Offset) (v : Byte) (s : State) : State :=
  { s with env := { s.env with responses := s.env.responses ++ [(o, v)] } }

/-- The command byte that this step takes: the host moves and its next action is a write of `CMD` (R45). -/
def fetchCommand (s : State) : Option Byte :=
  match nextAgent s, s.env.host with
  | .host, .wr o v :: _ => if o = Reg.offset .cmd then some v else none
  | _, _ => none

/-- The state with this step's turn and the host's next action consumed: what a command fetched by this step runs
in. -/
def afterFetch (s : State) : State := popAction (popTurn s)

end Sys2Proof.Machine
end

