-- ==== Sys2Proof/Machine/Commands.lean ====
section
/-! DEFINITION. The meanings of the two commands (spec/44_cipher_orchestration.md R95, R96): what the write of `CMD`
does. The core's own steps, which compute the result and end in the completion, come after it and are steps of their
own (Machine/Sequencer.lean): R105 forbids merging them into the write. -/

namespace Sys2Proof.Machine

/-- R95: `CIPHER`. Ignored while busy; otherwise validated and accepted, or rejected with `ERR_KEYLEN` or
`ERR_ROUNDS`. -/
def execCipher (s : State) : Host.Outcome State Fault Refusal := .next (startCommand .enc s)

/-- R96: `INVCIPHER`. Ignored while busy; otherwise validated and accepted, or rejected with `ERR_KEYLEN` or
`ERR_ROUNDS`. -/
def execInvcipher (s : State) : Host.Outcome State Fault Refusal := .next (startCommand .dec s)

end Sys2Proof.Machine
end

