-- ==== Sys2Proof/Machine/Dispatch.lean ====
section
/-! DEFINITION. The dispatch: one arm per command. -/

namespace Sys2Proof.Machine

def exec (i : Instr) (s : State) : Host.Outcome State Fault Refusal :=
  match i with
  | .cipher => Sys2Proof.Machine.execCipher s
  | .invcipher => Sys2Proof.Machine.execInvcipher s

end Sys2Proof.Machine
end

