-- ==== Sys2Proof/Machine/HostPort.lean ====
section
/-! DEFINITION. The host's turn: one action of the host on the core (spec/20_memory.md R38, R39, R41, R42), and the
expansions of the host notation (spec/30_encoding.md R53, R54). -/

namespace Sys2Proof.Machine

/-- R38: the host reads offset `o`. -/
def hostRead (o : Offset) (s : State) : State := respond o (readOffset o s) s

/-- R54: the host reads `STATUS` once for `POLL`; the action is consumed when the value read has bit 0 = 0. -/
def hostPoll (s : State) : State :=
  let t := hostRead (Reg.offset .status) s
  if (readOffset (Reg.offset .status) s).getLsbD 0 then t else popAction t

/-- One turn of the host: its next action is performed; with none left nothing happens. `command` is what a write of
`CMD` does (R93). -/
def hostTurn (command : Byte → State → Host.Outcome State Fault Refusal) (s : State) :
    Host.Outcome State Fault Refusal :=
  match s.env.host with
  | [] => .next s
  | .rd o :: _ => .next (hostRead o (popAction s))
  | .wr o v :: _ => memWrite command o v (popAction s)
  | .poll :: _ => .next (hostPoll s)
  | .reset :: _ => .next (resetCore (popAction s))

/-- The writes of consecutive elements of a byte-array register, from element `first` on. -/
def writesFrom (reg : Nat → Offset) (first : Nat) : List Byte → List HostAction
  | [] => []
  | v :: rest => .wr (reg first) v :: writesFrom reg (first + 1) rest

/-- R30: the offset of `DIN[i]`. -/
def dinOffset (i : Nat) : Offset := Fin.ofNat 128 (0x10 + i)

/-- R30: the offset of `KEY[i]`. -/
def keyOffset (i : Nat) : Offset := Fin.ofNat 128 (0x20 + i)

/-- R30: the offset of `DOUT[i]`. -/
def doutOffset (i : Nat) : Offset := Fin.ofNat 128 (0x40 + i)

/-- R53, R54: what a line of a host program expands to. -/
def HostOp.expand : HostOp → List HostAction
  | .wr r v => [.wr r.offset v]
  | .rd r => [.rd r.offset]
  | .ldblk h => writesFrom dinOffset 0 h
  | .ldkey h => writesFrom keyOffset 0 h
  | .setsize nk nr => [.wr (Reg.offset .nk) nk, .wr (Reg.offset .nr) nr]
  | .cipher => [.wr (Reg.offset .cmd) 0x01]
  | .invcipher => [.wr (Reg.offset .cmd) 0x02]
  | .poll => [.poll]
  | .rdout => (List.range 16).map fun i => .rd (doutOffset i)

/-- A host program: its lines in order. -/
def expandProgram : List HostOp → List HostAction
  | [] => []
  | op :: rest => op.expand ++ expandProgram rest

end Sys2Proof.Machine
end

