-- ==== Sys2Proof/Machine/Field.lean ====
section
/-! DEFINITION. Field arithmetic in GF(2⁸) (spec/40_field_arithmetic.md). Every function is pure and total (R63);
addition is `^^^` (R56). -/

namespace Sys2Proof.Machine

/-- R9: rotate a byte left by `n` positions, `0 ≤ n ≤ 7`. -/
def rotl8 (a : Byte) (n : Nat) : Byte := (a <<< n) ^^^ (a >>> (8 - n))

/-- R57, R26: the low byte of the reduction polynomial 0x11B. -/
def reductionByte : Byte := 0x1B

/-- R58: the source's `double(x)`. -/
def gfDouble (x : Byte) : Byte :=
  let s := x <<< 1
  if x.getLsbD 7 then s ^^^ reductionByte else s

/-- R59: one iteration of `multiply`, at bit `k` of `b`, on the pair of the accumulator and the running copy. -/
def gfMulStep (b : Byte) (p : Byte × Byte) (k : Nat) : Byte × Byte :=
  (if b.getLsbD k then p.1 ^^^ p.2 else p.1, gfDouble p.2)

/-- R59: the source's `multiply(a, b)`, double-and-add over the bits of `b` from least to most significant. -/
def gfMul (a b : Byte) : Byte :=
  ([0, 1, 2, 3, 4, 5, 6, 7].foldl (gfMulStep b) (0x00, a)).1

/-- R60: the source's `power(base, exponent)`. -/
def gfPow (base : Byte) : Nat → Byte
  | 0 => 0x01
  | e + 1 => gfMul (gfPow base e) base

/-- R61: the source's `inverse(a)`: seven squarings, then six products in the order of the source's list. At 0x00
the same chain gives 0x00 (R62). -/
def gfInv (a : Byte) : Byte :=
  let p2 := gfMul a a
  let p4 := gfMul p2 p2
  let p8 := gfMul p4 p4
  let p16 := gfMul p8 p8
  let p32 := gfMul p16 p16
  let p64 := gfMul p32 p32
  let p128 := gfMul p64 p64
  let a192 := gfMul p128 p64
  let a224 := gfMul a192 p32
  let a240 := gfMul a224 p16
  let a248 := gfMul a240 p8
  let a252 := gfMul a248 p4
  gfMul a252 p2

end Sys2Proof.Machine
end

