-- ==== Sys2Proof/Machine/Sbox.lean ====
section
/-! DEFINITION. The substitution box and its inverse, computed algebraically (spec/41_sbox.md). -/

namespace Sys2Proof.Machine

/-- R68: the affine map of the substitution box. -/
def affine (i : Byte) : Byte :=
  i ^^^ rotl8 i 1 ^^^ rotl8 i 2 ^^^ rotl8 i 3 ^^^ rotl8 i 4 ^^^ 0x63

/-- R69: the inverse affine map; the byte itself is not one of the terms. -/
def invAffine (s : Byte) : Byte :=
  rotl8 s 1 ^^^ rotl8 s 3 ^^^ rotl8 s 6 ^^^ 0x05

/-- R68: the source's `substitute(b)`; the zero test is on the input. -/
def sbox (b : Byte) : Byte :=
  affine (if b = 0x00 then 0x00 else gfInv b)

/-- R69: the source's `inverse_substitute(s)`; the zero test is on the intermediate value. -/
def invSbox (s : Byte) : Byte :=
  let t := invAffine s
  if t = 0x00 then 0x00 else gfInv t

end Sys2Proof.Machine
end

