-- ==== Sys2Proof/Machine/KeySchedule.lean ====
section
/-! DEFINITION. The key schedule (spec/43_key_schedule.md). The functions are specified for the three legal pairs
(Nk, Nr) only (spec/93_implementation_defined.md U5); a read past the end of a list, which no legal pair makes (R31,
U18), gives zero bytes (notes/assumptions 10). -/

namespace Sys2Proof.Machine

/-- Byte-wise XOR of two words. -/
def xorWord (u v : Word) : Word := Vector.ofFn fun j => u[j] ^^^ v[j]

/-- R84: left-rotate the byte sequence by one byte. -/
def rotWord (w : Word) : Word := #v[w[1], w[2], w[3], w[0]]

/-- R85: the forward substitution box on all four bytes. -/
def subWord (w : Word) : Word := #v[sbox w[0], sbox w[1], sbox w[2], sbox w[3]]

/-- R86: the ten round constants, indexed from 0. -/
def rconTable : List Byte := [0x01, 0x02, 0x04, 0x08, 0x10, 0x20, 0x40, 0x80, 0x1B, 0x36]

/-- R86: the round constant `Rcon[j]`. -/
def rcon (j : Nat) : Byte := rconTable.getD j 0x00

/-- XOR of a round constant into the first byte of a word, and into that byte only (R86). -/
def addRcon (c : Byte) (w : Word) : Word := #v[w[0] ^^^ c, w[1], w[2], w[3]]

/-- Word `i` of a list of words. -/
def wordAt (w : List Word) (i : Nat) : Word := w.getD i zeroWord

/-- R33: word `i` of the raw key, the key bytes `4i .. 4i + 3` in that order. -/
def keyWord (key : List Byte) (i : Nat) : Word :=
  #v[key.getD (4 * i) 0, key.getD (4 * i + 1) 0, key.getD (4 * i + 2) 0, key.getD (4 * i + 3) 0]

/-- R87, step 2: the candidate `temp` for word `i`, from word `i - 1`. -/
def scheduleTemp (nk i : Nat) (prev : Word) : Word :=
  if i % nk = 0 then addRcon (rcon (i / nk - 1)) (subWord (rotWord prev))
  else if nk > 6 ∧ i % nk = 4 then subWord prev
  else prev

/-- R87, step 3: word `i`, from the words before it. -/
def nextWord (nk i : Nat) (w : List Word) : Word :=
  xorWord (wordAt w (i - nk)) (scheduleTemp nk i (wordAt w (i - 1)))

/-- R87: append `n` more words in increasing index. -/
def expandFrom (nk : Nat) : Nat → List Word → List Word
  | 0, w => w
  | n + 1, w => expandFrom nk n (w ++ [nextWord nk w.length w])

/-- R87: the number of words of a schedule, `4·(Nr + 1)`. -/
def scheduleLength (nr : Nat) : Nat := 4 * (nr + 1)

/-- R87: `key_expansion(key, Nk, Nr)`. -/
def keyExpansion (key : List Byte) (nk nr : Nat) : List Word :=
  expandFrom nk (scheduleLength nr - nk) ((List.range nk).map (keyWord key))

/-- R89, R34: the round key of a round: 4 consecutive schedule words, byte `4c + r` from byte `r` of word
`4·round + c`. -/
def roundKey (w : List Word) (round : Nat) : Block :=
  Vector.ofFn fun i : Fin 16 => (wordAt w (4 * round + i.val / 4))[i.val % 4]'(by omega)

/-- R87, R31: `KS[i] <- w[i]` for every word of `w`; the words of `KS` beyond them keep their values (R130). -/
def storeSchedule (w : List Word) (ks : Schedule) : Schedule :=
  Vector.ofFn fun i : Fin 60 => w.getD i.val ks[i]

end Sys2Proof.Machine
end

