-- ==== Sys2Proof/Machine/Rounds.lean ====
section
/-! DEFINITION. The round transformation engines (spec/42_round_transformations.md). Byte `4*c + r` of a state is row
`r`, column `c` (R22); every result byte is computed from the state before the operation. -/

namespace Sys2Proof.Machine

/-- R74: byte substitution. -/
def subBytes (s : Block) : Block := Vector.ofFn fun i => sbox s[i]

/-- R75: inverse byte substitution. -/
def invSubBytes (s : Block) : Block := Vector.ofFn fun i => invSbox s[i]

/-- R76: row shift, `t[4c + r] = s[4((c + r) mod 4) + r]`. -/
def shiftRows (s : Block) : Block :=
  Vector.ofFn fun i : Fin 16 =>
    let r := i.val % 4
    let c := i.val / 4
    s[4 * ((c + r) % 4) + r]'(by omega)

/-- R77: inverse row shift, `t[4c + r] = s[4((c + 4 - r) mod 4) + r]`. -/
def invShiftRows (s : Block) : Block :=
  Vector.ofFn fun i : Fin 16 =>
    let r := i.val % 4
    let c := i.val / 4
    s[4 * ((c + 4 - r) % 4) + r]'(by omega)

/-- Column `c` of a state: the 4 contiguous bytes `s[4c .. 4c + 3]` (R78). -/
def column (s : Block) (c : Fin 4) : Word :=
  #v[s[4 * c.val], s[4 * c.val + 1], s[4 * c.val + 2], s[4 * c.val + 3]]

/-- The state whose column `c` is `f c`. -/
def ofColumns (f : Fin 4 → Word) : Block :=
  Vector.ofFn fun i : Fin 16 => (f ⟨i.val / 4, by omega⟩)[i.val % 4]'(by omega)

/-- One output byte of a matrix product: the row `m0 m1 m2 m3` times the column `a`, the four products combined
with XOR, each matrix entry the first operand of `gfMul` (R79). -/
def dot (m0 m1 m2 m3 : Byte) (a : Word) : Byte :=
  gfMul m0 a[0] ^^^ gfMul m1 a[1] ^^^ gfMul m2 a[2] ^^^ gfMul m3 a[3]

/-- R79: one column times the forward matrix of R78. -/
def mixColumn (a : Word) : Word :=
  #v[dot 0x02 0x03 0x01 0x01 a,
     dot 0x01 0x02 0x03 0x01 a,
     dot 0x01 0x01 0x02 0x03 a,
     dot 0x03 0x01 0x01 0x02 a]

/-- R80: one column times the inverse matrix of R78. -/
def invMixColumn (a : Word) : Word :=
  #v[dot 0x0e 0x0b 0x0d 0x09 a,
     dot 0x09 0x0e 0x0b 0x0d a,
     dot 0x0d 0x09 0x0e 0x0b a,
     dot 0x0b 0x0d 0x09 0x0e a]

/-- R79: column mixing. -/
def mixColumns (s : Block) : Block := ofColumns fun c => mixColumn (column s c)

/-- R80: inverse column mixing. -/
def invMixColumns (s : Block) : Block := ofColumns fun c => invMixColumn (column s c)

/-- R82: round-key addition, byte `i` with byte `i`. -/
def addRoundKey (s k : Block) : Block := Vector.ofFn fun i => s[i] ^^^ k[i]

end Sys2Proof.Machine
end

