-- ==== Sys2Proof/Machine/Cipher.lean ====
section
/-! DEFINITION. The two functions of the source's entry points (spec/44_cipher_orchestration.md R97, R98). They are the
reference the sequencer's steps (Machine/Sequencer.lean) are held to; the machine itself runs the steps. -/

namespace Sys2Proof.Machine

/-- R97: one full encrypt round. -/
def encRound (w : List Word) (round : Nat) (s : Block) : Block :=
  addRoundKey (mixColumns (shiftRows (subBytes s))) (roundKey w round)

/-- R97: the encrypt rounds `1 .. n`, in increasing order. -/
def encRounds (w : List Word) : Nat → Block → Block
  | 0, s => s
  | n + 1, s => encRound w (n + 1) (encRounds w n s)

/-- R98: one full decrypt round; mixing comes after the key addition. -/
def decRound (w : List Word) (round : Nat) (s : Block) : Block :=
  invMixColumns (addRoundKey (invSubBytes (invShiftRows s)) (roundKey w round))

/-- R98: the decrypt rounds `n .. 1`, in decreasing order. -/
def decRounds (w : List Word) : Nat → Block → Block
  | 0, s => s
  | n + 1, s => decRounds w n (decRound w (n + 1) s)

/-- R97: `cipher(block, Nk, Nr, key)`. -/
def cipher (block : Block) (nk nr : Nat) (key : List Byte) : Block :=
  let w := keyExpansion key nk nr
  let s := addRoundKey block (roundKey w 0)
  let s := encRounds w (nr - 1) s
  addRoundKey (shiftRows (subBytes s)) (roundKey w nr)

/-- R98: `inverse_cipher(block, Nk, Nr, key)`. -/
def inverseCipher (block : Block) (nk nr : Nat) (key : List Byte) : Block :=
  let w := keyExpansion key nk nr
  let s := addRoundKey block (roundKey w nr)
  let s := decRounds w (nr - 1) s
  addRoundKey (invSubBytes (invShiftRows s)) (roundKey w 0)

end Sys2Proof.Machine
end

