-- ==== Sys2Proof/Machine/Sequencer.lean ====
section
/-! DEFINITION. The sequencer: one engine operation per step while a command is in flight
(spec/44_cipher_orchestration.md R100 to R104). `Nk` and `Nr` are the latched `NKL` and `NRL` (R25). -/

namespace Sys2Proof.Machine

/-- `ST <- b ; SEQ <- q` (R10): what every step between `EXPAND` and `STORE` does, and all it does. -/
def State.advance (s : State) (b : Block) (q : SeqPos) : State := { s with st := b, seq := q }

/-- The round number as a natural number. -/
abbrev State.round (s : State) : Nat := s.seq.rnd.toNat

/-- The latched `Nr` as a natural number. -/
abbrev State.rounds (s : State) : Nat := s.cfg.nrl.toNat

/-- R89: the round key of round `round`, read from `KS`. -/
def State.roundKeyAt (s : State) (round : Nat) : Block := roundKey s.ks.toList round

/-- R100: the schedule of the command in flight, `key_expansion(KEY[0 .. 4·Nk − 1], Nk, Nr)`. -/
def State.commandSchedule (s : State) : List Word :=
  keyExpansion (operandKey s.cfg.nkl.toNat s.key) s.cfg.nkl.toNat s.cfg.nrl.toNat

/-- R100: step `EXPAND`. -/
def expandStep (s : State) : State :=
  { s with ks := storeSchedule s.commandSchedule s.ks, seq := ⟨s.seq.op, .init, 0⟩ }

/-- R101: step `INIT` of a `CIPHER` command: the block is loaded and the first round key added. -/
def encInitStep (s : State) : State := s.advance (addRoundKey s.din (s.roundKeyAt 0)) ⟨.enc, .sub, 1⟩

/-- R101: step `INIT` of an `INVCIPHER` command: the block is loaded and the last round key added. -/
def decInitStep (s : State) : State :=
  s.advance (addRoundKey s.din (s.roundKeyAt s.rounds)) ⟨.dec, .shift, BitVec.ofNat 4 (s.rounds - 1)⟩

/-- R104: step `STORE`, the completion, all of it at once. -/
def storeStep (s : State) : State :=
  { s with dout := s.st, status := s.status.complete, seq := .atRest }

/-- R102: step `SUB` of a `CIPHER` command. -/
def encSubStep (s : State) : State := s.advance (subBytes s.st) ⟨.enc, .shift, s.seq.rnd⟩

/-- R102: step `SHIFT`; column mixing is omitted in the final round. -/
def encShiftStep (s : State) : State :=
  s.advance (shiftRows s.st) ⟨.enc, if s.round < s.rounds then .mix else .add, s.seq.rnd⟩

/-- R102: step `MIX`. -/
def encMixStep (s : State) : State := s.advance (mixColumns s.st) ⟨.enc, .add, s.seq.rnd⟩

/-- R102: step `ADD`. -/
def encAddStep (s : State) : State :=
  s.advance (addRoundKey s.st (s.roundKeyAt s.round))
    (if s.round < s.rounds then ⟨.enc, .sub, s.seq.rnd + 1⟩ else ⟨.enc, .store, s.seq.rnd⟩)

/-- R103: step `SHIFT` of an `INVCIPHER` command. -/
def decShiftStep (s : State) : State := s.advance (invShiftRows s.st) ⟨.dec, .sub, s.seq.rnd⟩

/-- R103: step `SUB`. -/
def decSubStep (s : State) : State := s.advance (invSubBytes s.st) ⟨.dec, .add, s.seq.rnd⟩

/-- R103: step `ADD`; no mixing in the final step. -/
def decAddStep (s : State) : State :=
  s.advance (addRoundKey s.st (s.roundKeyAt s.round))
    (if 1 ≤ s.round then ⟨.dec, .mix, s.seq.rnd⟩ else ⟨.dec, .store, 0⟩)

/-- R103: step `MIX`. -/
def decMixStep (s : State) : State := s.advance (invMixColumns s.st) ⟨.dec, .shift, s.seq.rnd - 1⟩

/-- R100 to R102, R104: the positions of a `CIPHER` command at which a step is enabled. -/
def encEnabled (phase : Phase) (round rounds : Nat) : Bool :=
  match phase with
  | .idle => false
  | .expand => round == 0
  | .init => round == 0
  | .sub => 1 ≤ round && round ≤ rounds
  | .shift => 1 ≤ round && round ≤ rounds
  | .mix => 1 ≤ round && round ≤ rounds
  | .add => 1 ≤ round && round ≤ rounds
  | .store => true

/-- R100, R101, R103, R104: the positions of an `INVCIPHER` command at which a step is enabled. `MIX` in round 0 has no
next position, so it is not among them. -/
def decEnabled (phase : Phase) (round rounds : Nat) : Bool :=
  match phase with
  | .idle => false
  | .expand => round == 0
  | .init => round == 0
  | .sub => round < rounds
  | .shift => round < rounds
  | .mix => 1 ≤ round && round < rounds
  | .add => round < rounds
  | .store => true

/-- The step of a `CIPHER` command that its phase selects. -/
def encStep (s : State) : State :=
  match s.seq.phase with
  | .idle => s
  | .expand => expandStep s
  | .init => encInitStep s
  | .sub => encSubStep s
  | .shift => encShiftStep s
  | .mix => encMixStep s
  | .add => encAddStep s
  | .store => storeStep s

/-- The step of an `INVCIPHER` command that its phase selects. -/
def decStep (s : State) : State :=
  match s.seq.phase with
  | .idle => s
  | .expand => expandStep s
  | .init => decInitStep s
  | .sub => decSubStep s
  | .shift => decShiftStep s
  | .mix => decMixStep s
  | .add => decAddStep s
  | .store => storeStep s

/-- One turn of the core: the sequencer step `SEQ` enables (R100 to R104); idle, the core does nothing (R123). A command
in flight that no rule gives a step stops the machine by name (notes/assumptions 8 and 9). -/
def coreTurn (s : State) : Host.Outcome State Fault Refusal :=
  match s.seq.op with
  | .none => .next s
  | .enc =>
    if legalPair s.cfg.nkl s.cfg.nrl then
      if encEnabled s.seq.phase s.round s.rounds then .next (encStep s) else .fault .noStepEnabled
    else .fault .unsupportedPair
  | .dec =>
    if legalPair s.cfg.nkl s.cfg.nrl then
      if decEnabled s.seq.phase s.round s.rounds then .next (decStep s) else .fault .noStepEnabled
    else .fault .unsupportedPair

end Sys2Proof.Machine
end

