-- ==== Sys2Proof/Machine/Step.lean ====
section
/-! DEFINITION. The step: one turn of the host or one turn of the core (spec/20_memory.md R41). -/

namespace Sys2Proof.Machine

/-- R93: `command(v)`, the effect of writing byte `v` to `CMD`: decode, then run the command or reject the opcode. -/
def command (v : Byte) (s : State) : Host.Outcome State Fault Refusal :=
  match decodeOpcode v with
  | .command i => exec i s
  | .rejected _ => .next (rejectOpcode s)

/-- R41: one step, by the agent whose turn it is. -/
def step (s : State) : Host.Outcome State Fault Refusal :=
  match nextAgent s with
  | .core => coreTurn (popTurn s)
  | .host => hostTurn command (popTurn s)

/-- The state in which the host's next action is the write to `CMD` of the byte that a table word stands for, and the
next turn is the host's (notes/assumptions 4). -/
def State.withFetchWord (s : State) (nbits w : Nat) : State :=
  { s with env := { s.env with
      host := .wr (Reg.offset .cmd) (tableWordByte nbits w) :: s.env.host
      sched := .host :: s.env.sched } }

end Sys2Proof.Machine
end

