-- ==== Sys2Proof/Safety.lean ====
section
/-! DEFINITION. What claims about runs are stated in: the invariant of reachable states, the events a step can be, runs
of the core's own turns, and reachability. -/

namespace Sys2Proof.Machine

/-- R94: the three legal pairs (Nk, Nr), as numbers. -/
abbrev LegalSizes (nk nr : Nat) : Prop := (nk = 4 ∧ nr = 10) ∨ (nk = 6 ∧ nr = 12) ∨ (nk = 8 ∧ nr = 14)

/-- R94: `NK` and `NR` hold one of the three legal pairs. -/
abbrev ValidOperands (s : State) : Prop :=
  (s.nk = 0x04 ∧ s.nr = 0x0A) ∨ (s.nk = 0x06 ∧ s.nr = 0x0C) ∨ (s.nk = 0x08 ∧ s.nr = 0x0E)

/-- R48: the number `Nk` a command written now uses. -/
abbrev State.nkNat (s : State) : Nat := s.nk.toNat

/-- R48: the number `Nr` a command written now uses. -/
abbrev State.nrNat (s : State) : Nat := s.nr.toNat

/-- R48: the key a command written now uses. -/
abbrev State.keyNow (s : State) : List Byte := operandKey s.nkNat s.key

/-! ### The invariant -/

/-- R21: the flags are one of the six combinations that are ever reached. -/
abbrev Status.Legal (f : Status) : Prop :=
  (f.busy = true → f.done = false ∧ f.err = .none) ∧ (f.done = true → f.busy = false ∧ f.err = .none)

/-- R100 to R102, R104: the positions a `CIPHER` command takes, in round `r` of `nr`. -/
def EncPosition (p : Phase) (r nr : Nat) : Prop :=
  match p with
  | .idle => False
  | .expand => r = 0
  | .init => r = 0
  | .sub => 1 ≤ r ∧ r ≤ nr
  | .shift => 1 ≤ r ∧ r ≤ nr
  | .mix => 1 ≤ r ∧ r < nr
  | .add => 1 ≤ r ∧ r ≤ nr
  | .store => r = nr

/-- R100, R101, R103, R104: the positions an `INVCIPHER` command takes. -/
def DecPosition (p : Phase) (r nr : Nat) : Prop :=
  match p with
  | .idle => False
  | .expand => r = 0
  | .init => r = 0
  | .sub => r < nr
  | .shift => r < nr
  | .mix => 1 ≤ r ∧ r < nr
  | .add => r < nr
  | .store => r = 0

/-- The sequencer position is at rest, or one that a command in flight takes. -/
def PositionLegal (s : State) : Prop :=
  match s.seq.op with
  | .none => s.seq = .atRest
  | .enc => EncPosition s.seq.phase s.round s.rounds
  | .dec => DecPosition s.seq.phase s.round s.rounds

/-- The invariant: R21 (flags, and `BUSY` exactly when a command is in flight), R25 (`CFG` latches `NK` and `NR`
throughout a command), R94 (a command in flight has a legal pair), R24 (the sequencer position). -/
structure Inv (s : State) : Prop where
  flags : s.status.Legal
  busy : s.status.busy = inFlight s
  latched : s.status.busy = true → s.cfg = ⟨s.nk, s.nr⟩
  pair : s.status.busy = true → ValidOperands s
  position : PositionLegal s

/-- R91, R23: once a command in flight has passed `EXPAND`, `KS` holds the schedule of its key. -/
def ScheduleHeld (s : State) : Prop :=
  inFlight s = true → s.seq.phase ≠ .expand →
    ∀ i, i < scheduleLength s.rounds → wordAt s.ks.toList i = wordAt s.commandSchedule i

/-! ### What a step is -/

/-- The host's turn, and its next action is `a`. -/
def HostDoes (a : HostAction) (s : State) : Prop := nextAgent s = .host ∧ s.env.host.head? = some a

/-- R104: this step is the completion of a command in flight. -/
def Completes (s : State) : Prop := nextAgent s = .core ∧ inFlight s = true ∧ s.seq.phase = .store

/-- This step is one of the core's, on a command in flight. -/
def CoreWorks (s : State) : Prop := nextAgent s = .core ∧ inFlight s = true

/-- Two states agree in everything the core holds; their surroundings may differ. -/
def SameCore (s t : State) : Prop := t = { s with env := t.env }

/-! ### Runs -/

/-- `n` turns of the core, with no turn of the host between them. -/
def coreTurns : Nat → State → Host.Outcome State Fault Refusal
  | 0, s => .next s
  | n + 1, s =>
    match coreTurn s with
    | .next t => coreTurns n t
    | .fault r => .fault r
    | .refused r => .refused r

/-- `n` steps of the machine (`Host.Core.run core`, by the lemma `run_eq_steps`). -/
def steps : Nat → State → Host.Outcome State Fault Refusal
  | 0, s => .next s
  | n + 1, s =>
    match step s with
    | .next t => steps n t
    | .fault r => .fault r
    | .refused r => .refused r

/-- A state some run from reset reaches, for some surroundings (any host actions, any schedule). -/
def Reachable (s : State) : Prop :=
  ∃ (env : Env) (n : Nat), steps n { State.reset with env := env } = .next s

end Sys2Proof.Machine
end

