-- ==== Sys2Proof/Certificates/Slice0/Obligations.lean ====
section
/-! DEFINITION. The statements for the provers, in the order of OBLIGATIONS.json. -/

open Sys2Proof Sys2Proof.Machine

/-! ### Encoding and dispatch -/

/-- R46: a byte selects a command exactly when `v & mask = match` for its row of the opcode map. -/
def Obligations.ByteSelectsTableRow : Prop :=
  ∀ (v : Byte) (i : Instr), decodeOpcode v = .command i ↔
    (v &&& 0xFF = 0x01 ∧ i = .cipher) ∨ (v &&& 0xFF = 0x02 ∧ i = .invcipher)

/-- Decoding and encoding agree, in both directions and with any bytes following (R45, R46, R51). -/
def Obligations.DecodeEncodeAgree : Prop :=
  ∀ (bs rest : List Byte) (i : Instr), decode bs = .command (i, rest) ↔ bs = encode i ++ rest

/-- R50: every opcode other than 0x01 and 0x02 is illegal; written while idle it is a rejected command with `ERR_CMD`
that changes `STATUS` only. -/
def Obligations.IllegalOpcodeRejected : Prop :=
  ∀ v : Byte, v ≠ 0x01 → v ≠ 0x02 →
    decodeOpcode v = .rejected (.illegalOpcode v) ∧
    ∀ s : State, s.status.busy = false → command v s = .next { s with status := ⟨false, false, .cmd⟩ }

/-- A step whose fetched byte decodes to a command runs that command (R45, R93), in the state in which this turn and the
write are consumed; nothing else of the state differs there. That the host's actions and the turns are lists in `env`,
from which a step takes the first, is the model's own choice (notes/assumptions 3 and 4), not the spec's. -/
def Obligations.StepRunsDecodedCommand : Prop :=
  ∀ (s : State) (v : Byte) (i : Instr), fetchCommand s = some v → decodeOpcode v = .command i →
    step s = exec i (afterFetch s) ∧
    afterFetch s = { s with env := { s.env with host := s.env.host.tail, sched := s.env.sched.tail } }

/-- R41: a step is one turn of one agent: a turn of the core is a sequencer step, and a turn of the host whose next action
is a write is that write, in the state with the turn (and the action) consumed and nothing else changed. -/
def Obligations.StepIsOneTurn : Prop :=
  ∀ s : State,
    (nextAgent s = .core → step s = coreTurn { s with env := { s.env with sched := s.env.sched.tail } }) ∧
    (∀ (o : Offset) (v : Byte), HostDoes (.wr o v) s →
      step s = memWrite command o v
        { s with env := { s.env with host := s.env.host.tail, sched := s.env.sched.tail } }) ∧
    (nextAgent s = .host → s.env.host = [] → step s = .next { s with env := { s.env with sched := s.env.sched.tail } })

/-- A command placed by `withFetchWord` is what the very next step runs, in the state it was placed in. `withFetchWord` and
the host's list it writes are the model's own choice (notes/assumptions 4), and so is reading a table word modulo
`2 ^ nbits` (notes/assumptions 17); the spec gives only that a command is a byte written to `CMD` (R45). -/
def Obligations.PlacedWordRunsNext : Prop :=
  ∀ (s : State) (nbits w : Nat) (i : Instr), decodeTableWord nbits w = some i →
    step (s.withFetchWord nbits w) = exec i s

/-! ### The commands -/

/-- R93, R117: a write of `CMD`, in every case: ignored while busy, then the opcode, then `NK`, then `NR`, the first
check that fails deciding the outcome; otherwise accepted. -/
def Obligations.CommandWriteOutcome : Prop :=
  ∀ (s : State) (v : Byte), memWrite command 0x00 v s = .next (
    if s.status.busy = true then s
    else if v ≠ 0x01 ∧ v ≠ 0x02 then { s with status := ⟨false, false, .cmd⟩ }
    else if s.nk ≠ 4 ∧ s.nk ≠ 6 ∧ s.nk ≠ 8 then { s with status := ⟨false, false, .keylen⟩ }
    else if s.nr.toNat ≠ s.nk.toNat + 6 then { s with status := ⟨false, false, .rounds⟩ }
    else { s with
      status := ⟨true, false, .none⟩
      cfg := ⟨s.nk, s.nr⟩
      seq := ⟨if v = 0x01 then .enc else .dec, .expand, 0⟩ })

/-- `CIPHER` written while idle with a legal pair is accepted (R93, R95): the completion of its `CMD` write. -/
def Obligations.CipherAccepted : Prop :=
  ∀ s : State, s.status.busy = false → ValidOperands s →
    exec .cipher s = .next { s with
      status := ⟨true, false, .none⟩, cfg := ⟨s.nk, s.nr⟩, seq := ⟨.enc, .expand, 0⟩ }

/-- `INVCIPHER` written while idle with a legal pair is accepted (R93, R96): the completion of its `CMD` write. -/
def Obligations.InvcipherAccepted : Prop :=
  ∀ s : State, s.status.busy = false → ValidOperands s →
    exec .invcipher s = .next { s with
      status := ⟨true, false, .none⟩, cfg := ⟨s.nk, s.nr⟩, seq := ⟨.dec, .expand, 0⟩ }

/-- R94: a command written while idle is accepted exactly when (`NK`, `NR`) is one of the three legal pairs, whatever
the block and the key; a rejected one touches neither `ST` nor `KS`. -/
def Obligations.ValidationIsExact : Prop :=
  ∀ (i : Instr) (s : State), s.status.busy = false →
    ∃ t, exec i s = .next t ∧ (t.status.busy = true ↔ ValidOperands s) ∧
      (¬ ValidOperands s → t = { s with status := t.status })

/-- R113: `ERR_KEYLEN`, for both commands and every `NR`. -/
def Obligations.KeyLengthError : Prop :=
  ∀ (i : Instr) (s : State), s.status.busy = false → s.nk ≠ 4 → s.nk ≠ 6 → s.nk ≠ 8 →
    exec i s = .next { s with status := ⟨false, false, .keylen⟩ }

/-- R114: `ERR_ROUNDS`, for both commands. -/
def Obligations.RoundCountError : Prop :=
  ∀ (i : Instr) (s : State), s.status.busy = false → (s.nk = 4 ∨ s.nk = 6 ∨ s.nk = 8) →
    s.nr.toNat ≠ s.nk.toNat + 6 →
    exec i s = .next { s with status := ⟨false, false, .rounds⟩ }

/-- The frame of both commands: they change `STATUS`, `CFG` and `SEQ` only, no register-space byte but `STATUS` reads
differently, and while busy nothing changes at all (R93, R95, R96). -/
def Obligations.CommandFrame : Prop :=
  ∀ (i : Instr) (s t : State), exec i s = .next t →
    t.din = s.din ∧ t.key = s.key ∧ t.dout = s.dout ∧ t.nk = s.nk ∧ t.nr = s.nr ∧ t.st = s.st ∧ t.ks = s.ks ∧
    t.env = s.env ∧
    (∀ o : Offset, o ≠ Reg.offset .status → readOffset o t = readOffset o s) ∧
    (s.status.busy = true → t = s)

/-- R118: a rejected command is precise: `STATUS.ERR` holds the code and the next read of `STATUS` shows it, `DONE` is 0,
`BUSY` stays 0, `SEQ` stays at rest and nothing else changes. -/
def Obligations.RejectionIsPrecise : Prop :=
  ∀ (s t : State) (v : Byte), Inv s → s.status.busy = false → command v s = .next t → t.status.busy = false →
    t.status.err = (if v ≠ 0x01 ∧ v ≠ 0x02 then .cmd else if s.nk ≠ 4 ∧ s.nk ≠ 6 ∧ s.nk ≠ 8 then .keylen else .rounds) ∧
    (readOffset (Reg.offset .status) t).extractLsb' 2 2 = t.status.err.code ∧
    t.status.done = false ∧ t.seq = .atRest ∧ t = { s with status := t.status }

/-! ### The register space -/

/-- R30: the register map: the number of every offset; every register is found at its offset and nowhere else; the rest is
reserved. -/
def Obligations.RegisterMapExact : Prop :=
  ((Reg.offset .cmd).val = 0x00 ∧ (Reg.offset .status).val = 0x01 ∧ (Reg.offset .nk).val = 0x02 ∧
    (Reg.offset .nr).val = 0x03) ∧
  (∀ i : Fin 16, (Reg.offset (.din i)).val = 0x10 + i.val ∧ (Reg.offset (.dout i)).val = 0x40 + i.val) ∧
  (∀ i : Fin 32, (Reg.offset (.key i)).val = 0x20 + i.val) ∧
  (∀ r : Reg, regAt r.offset = some r) ∧ (∀ (o : Offset) (r : Reg), regAt o = some r → r.offset = o) ∧
  (∀ o : Offset, regAt o = none ↔ (0x04 ≤ o.val ∧ o.val ≤ 0x0F) ∨ (0x50 ≤ o.val ∧ o.val ≤ 0x7F))

/-- R19: the byte read from `STATUS`: bit 0 `BUSY`, bit 1 `DONE`, bits 3:2 `ERR`, bits 7:4 zero; the numeric error codes
(R19, R111); and the six bytes of R111's last column. -/
def Obligations.StatusByteFields : Prop :=
  (∀ s : State, readOffset (Reg.offset .status) s = s.status.toByte) ∧
  (∀ f : Status, f.toByte.getLsbD 0 = f.busy ∧ f.toByte.getLsbD 1 = f.done ∧
    f.toByte.extractLsb' 2 2 = f.err.code ∧ f.toByte.extractLsb' 4 4 = 0) ∧
  (ErrCode.none.code = 0 ∧ ErrCode.keylen.code = 1 ∧ ErrCode.rounds.code = 2 ∧ ErrCode.cmd.code = 3) ∧
  (Status.toByte ⟨false, false, .none⟩ = 0x00 ∧ Status.toByte ⟨true, false, .none⟩ = 0x01 ∧
    Status.toByte ⟨false, true, .none⟩ = 0x02 ∧ Status.toByte ⟨false, false, .keylen⟩ = 0x04 ∧
    Status.toByte ⟨false, false, .rounds⟩ = 0x08 ∧ Status.toByte ⟨false, false, .cmd⟩ = 0x0C)

/-- R39: a host write, at every offset and in every state. -/
def Obligations.HostWriteEffect : Prop :=
  ∀ (o : Offset) (v : Byte) (s : State), memWrite command o v s =
    if s.status.busy = true then .next s
    else if o.val = 0x00 then command v s
    else if o.val = 0x02 then .next { s with nk := v }
    else if o.val = 0x03 then .next { s with nr := v }
    else if h : 0x10 ≤ o.val ∧ o.val ≤ 0x1F then .next { s with din := s.din.set (o.val - 0x10) v }
    else if h : 0x20 ≤ o.val ∧ o.val ≤ 0x3F then .next { s with key := s.key.set (o.val - 0x20) v }
    else .next s

/-- R38: a host read, at every offset and in every state: the value, that the core does not change, and that what `DOUT`
holds does not change while a command is in flight. -/
def Obligations.HostReadValue : Prop :=
  (∀ (o : Offset) (s : State), readOffset o s =
    if o.val = 0x01 then s.status.toByte
    else if o.val = 0x02 then s.nk
    else if o.val = 0x03 then s.nr
    else if h : 0x10 ≤ o.val ∧ o.val ≤ 0x1F then s.din[o.val - 0x10]
    else if h : 0x20 ≤ o.val ∧ o.val ≤ 0x3F then s.key[o.val - 0x20]
    else if h : 0x40 ≤ o.val ∧ o.val ≤ 0x4F then s.dout[o.val - 0x40]
    else 0x00) ∧
  (∀ (o : Offset) (s : State), HostDoes (.rd o) s →
    ∃ t, step s = .next t ∧ SameCore s t ∧ t.env.responses = s.env.responses ++ [(o, readOffset o s)]) ∧
  ∀ s t : State, step s = .next t → t.status.busy = true → t.dout = s.dout

/-- A write made while idle, other than of `CMD`, stores at its own offset only: the three data registers are distinct
storages and no element aliases another (R12); `STATUS`, `DOUT` and reserved offsets store nothing (R39). -/
def Obligations.WriteThenRead : Prop :=
  ∀ (o : Offset) (v : Byte) (s : State), s.status.busy = false → o ≠ Reg.offset .cmd →
    ∃ t, memWrite command o v s = .next t ∧
      (∀ o' : Offset, o' ≠ o → readOffset o' t = readOffset o' s) ∧
      readOffset o t =
        if o.val = 0x02 ∨ o.val = 0x03 ∨ (0x10 ≤ o.val ∧ o.val ≤ 0x3F) then v else readOffset o s

/-! ### The sequencer -/

/-- R100: step `EXPAND`. -/
def Obligations.ExpandStepEffect : Prop :=
  ∀ (s : State) (op : SeqOp), op ≠ .none → s.seq = ⟨op, .expand, 0⟩ → LegalSizes s.cfg.nkl.toNat s.cfg.nrl.toNat →
    ∃ ks : Schedule, coreTurn s = .next { s with ks := ks, seq := ⟨op, .init, 0⟩ } ∧
      ∀ i : Fin 60, ks[i] =
        if i.val < 4 * (s.cfg.nrl.toNat + 1) then
          wordAt (keyExpansion (s.key.toList.take (4 * s.cfg.nkl.toNat)) s.cfg.nkl.toNat s.cfg.nrl.toNat) i.val
        else s.ks[i]

/-- R101: step `INIT`, in both directions. -/
def Obligations.InitStepEffect : Prop :=
  ∀ s : State, LegalSizes s.cfg.nkl.toNat s.cfg.nrl.toNat →
    (s.seq = ⟨.enc, .init, 0⟩ → coreTurn s = .next { s with
      st := addRoundKey s.din (roundKey s.ks.toList 0), seq := ⟨.enc, .sub, 1⟩ }) ∧
    (s.seq = ⟨.dec, .init, 0⟩ → coreTurn s = .next { s with
      st := addRoundKey s.din (roundKey s.ks.toList s.cfg.nrl.toNat),
      seq := ⟨.dec, .shift, BitVec.ofNat 4 (s.cfg.nrl.toNat - 1)⟩ })

/-- R102: the encrypt steps, for every round `1 ≤ r ≤ Nr`. -/
def Obligations.EncryptSteps : Prop :=
  ∀ (s : State) (r : BitVec 4), LegalSizes s.cfg.nkl.toNat s.cfg.nrl.toNat →
    1 ≤ r.toNat → r.toNat ≤ s.cfg.nrl.toNat →
    (s.seq = ⟨.enc, .sub, r⟩ → coreTurn s = .next { s with st := subBytes s.st, seq := ⟨.enc, .shift, r⟩ }) ∧
    (s.seq = ⟨.enc, .shift, r⟩ → coreTurn s = .next { s with
      st := shiftRows s.st, seq := ⟨.enc, if r.toNat < s.cfg.nrl.toNat then .mix else .add, r⟩ }) ∧
    (s.seq = ⟨.enc, .mix, r⟩ → coreTurn s = .next { s with st := mixColumns s.st, seq := ⟨.enc, .add, r⟩ }) ∧
    (s.seq = ⟨.enc, .add, r⟩ → coreTurn s = .next { s with
      st := addRoundKey s.st (roundKey s.ks.toList r.toNat),
      seq := if r.toNat < s.cfg.nrl.toNat then ⟨.enc, .sub, r + 1⟩ else ⟨.enc, .store, r⟩ })

/-- R103: the decrypt steps, for every round `0 ≤ r ≤ Nr - 1`; `MIX` has a next position for `r ≥ 1` only. -/
def Obligations.DecryptSteps : Prop :=
  ∀ (s : State) (r : BitVec 4), LegalSizes s.cfg.nkl.toNat s.cfg.nrl.toNat → r.toNat < s.cfg.nrl.toNat →
    (s.seq = ⟨.dec, .shift, r⟩ → coreTurn s = .next { s with st := invShiftRows s.st, seq := ⟨.dec, .sub, r⟩ }) ∧
    (s.seq = ⟨.dec, .sub, r⟩ → coreTurn s = .next { s with st := invSubBytes s.st, seq := ⟨.dec, .add, r⟩ }) ∧
    (s.seq = ⟨.dec, .add, r⟩ → coreTurn s = .next { s with
      st := addRoundKey s.st (roundKey s.ks.toList r.toNat),
      seq := if 1 ≤ r.toNat then ⟨.dec, .mix, r⟩ else ⟨.dec, .store, 0⟩ }) ∧
    (1 ≤ r.toNat → s.seq = ⟨.dec, .mix, r⟩ → coreTurn s = .next { s with
      st := invMixColumns s.st, seq := ⟨.dec, .shift, r - 1⟩ })

/-- R104: step `STORE`, the completion: all 16 bytes of `DOUT` and the flags in one step; `ST` and `KS` keep their
values. -/
def Obligations.StoreStepEffect : Prop :=
  ∀ (s : State) (op : SeqOp) (r : BitVec 4), op ≠ .none → s.seq = ⟨op, .store, r⟩ →
    LegalSizes s.cfg.nkl.toNat s.cfg.nrl.toNat →
    coreTurn s = .next { s with
      dout := s.st, status := ⟨false, true, s.status.err⟩, seq := ⟨.none, .idle, 0⟩ }

/-- R123: an idle core does nothing: its turn changes nothing, and with nothing from the host a step changes
nothing. -/
def Obligations.IdleCoreWaits : Prop :=
  ∀ s : State, inFlight s = false →
    coreTurn s = .next s ∧ (s.env.host = [] → s.env.sched = [] → step s = .next s)

/-- R106: which step follows which depends on `SEQ` and `CFG` and never on a data byte. -/
def Obligations.ControlIndependentOfData : Prop :=
  ∀ s s' t : State, s.seq = s'.seq → s.cfg = s'.cfg → coreTurn s = .next t →
    ∃ t', coreTurn s' = .next t' ∧ t'.seq = t.seq ∧ t'.cfg = t.cfg

/-- The model's own stops (notes/assumptions 8 and 9): a command in flight at a position no rule enables, and one whose
`CFG` is no legal pair. No reachable state is one of them (`NoStepStops`). -/
def Obligations.OutsideTheRulesStops : Prop :=
  ∀ s : State, inFlight s = true →
    (LegalSizes s.cfg.nkl.toNat s.cfg.nrl.toNat →
      s.seq.phase = .idle ∨ s.seq = ⟨.dec, .mix, 0⟩ → coreTurn s = .fault .noStepEnabled) ∧
    (¬ LegalSizes s.cfg.nkl.toNat s.cfg.nrl.toNat → coreTurn s = .fault .unsupportedPair)

/-! ### Field arithmetic and the substitution box -/

/-- R55: the polynomial over GF(2) whose coefficients are the bits of a byte. -/
noncomputable def Sys2Proof.Machine.toPoly (b : Byte) : Polynomial (ZMod 2) :=
  ∑ k ∈ Finset.range 8, if b.getLsbD k then Polynomial.X ^ k else 0

/-- R57: the reduction polynomial x⁸ + x⁴ + x³ + x + 1. -/
noncomputable def Sys2Proof.Machine.redPoly : Polynomial (ZMod 2) :=
  Polynomial.X ^ 8 + Polynomial.X ^ 4 + Polynomial.X ^ 3 + Polynomial.X + 1

/-- R55, R57, R59: `gf_mul` is multiplication of polynomials over GF(2) modulo the reduction polynomial, and XOR is
their addition. -/
def Obligations.GfMulIsPolynomialProduct : Prop :=
  (∀ a b : Byte, ∃ q, toPoly a * toPoly b = toPoly (gfMul a b) + q * redPoly) ∧
  (∀ a b : Byte, toPoly (a ^^^ b) = toPoly a + toPoly b) ∧
  (∀ a b : Byte, toPoly a = toPoly b → a = b)

/-- The laws of `gf_mul` that R65 lists (marked there as general knowledge and checked on the pseudocode). -/
def Obligations.GfMulLaws : Prop :=
  (∀ a b : Byte, gfMul a b = gfMul b a) ∧
  (∀ a b c : Byte, gfMul (gfMul a b) c = gfMul a (gfMul b c)) ∧
  (∀ a b c : Byte, gfMul a (b ^^^ c) = gfMul a b ^^^ gfMul a c) ∧
  (∀ a : Byte, gfMul a 0x01 = a ∧ gfMul a 0x00 = 0x00) ∧
  (∀ a b : Byte, gfMul a b = 0x00 → a = 0x00 ∨ b = 0x00)

/-- R61, R62: the inverse of a nonzero byte is the unique one, 0x00 maps to 0x00, and the chain computes the 254th
power (R60). -/
def Obligations.InverseIsUnique : Prop :=
  gfInv 0x00 = 0x00 ∧
  (∀ a b : Byte, a ≠ 0x00 → (gfMul a b = 0x01 ↔ b = gfInv a)) ∧
  (∀ a : Byte, gfInv a = gfPow a 254)

/-- R68: the substitution box bit by bit. -/
def Obligations.SboxBits : Prop :=
  ∀ (b : Byte) (k : Fin 8),
    let i := if b = 0x00 then 0x00 else gfInv b
    (sbox b).getLsbD k.val =
      (i.getLsbD k.val ^^ i.getLsbD ((k.val + 7) % 8) ^^ i.getLsbD ((k.val + 6) % 8) ^^
        i.getLsbD ((k.val + 5) % 8) ^^ i.getLsbD ((k.val + 4) % 8) ^^ (0x63 : Byte).getLsbD k.val)

/-- R70: the two substitution functions undo each other on all 256 bytes. -/
def Obligations.SboxRoundTrip : Prop :=
  ∀ x : Byte, invSbox (sbox x) = x ∧ sbox (invSbox x) = x

/-! ### The round transformations -/

/-- R76, R77: row `r` is rotated left (right) by `r` positions, and the two undo each other. -/
def Obligations.RowShiftsRotate : Prop :=
  ∀ s : Block,
    (∀ r c : Fin 4, (shiftRows s)[4 * c.val + r.val] = s[4 * ((c.val + r.val) % 4) + r.val] ∧
      (invShiftRows s)[4 * c.val + r.val] = s[4 * ((c.val + 4 - r.val) % 4) + r.val]) ∧
    invShiftRows (shiftRows s) = s ∧ shiftRows (invShiftRows s) = s

/-- Byte substitution has its inverse (R75) and round-key addition is its own (R82). -/
def Obligations.ByteLaneEnginesInvert : Prop :=
  ∀ s k : Block, invSubBytes (subBytes s) = s ∧ subBytes (invSubBytes s) = s ∧
    addRoundKey (addRoundKey s k) k = s

/-- R81: column mixing followed by inverse column mixing is the identity on every possible 4-byte column, and in the
other order. -/
def Obligations.MixColumnsInvert : Prop :=
  ∀ c : Word, invMixColumn (mixColumn c) = c ∧ mixColumn (invMixColumn c) = c

/-- R83: the lanes of the engines: byte lanes of byte substitution and round-key addition, column lanes of mixing, and
the row shifts that move bytes within their row. -/
def Obligations.LaneStructure : Prop :=
  (∀ (s t k l : Block) (i : Fin 16), s[i] = t[i] → k[i] = l[i] →
    (subBytes s)[i] = (subBytes t)[i] ∧ (invSubBytes s)[i] = (invSubBytes t)[i] ∧
    (addRoundKey s k)[i] = (addRoundKey t l)[i]) ∧
  (∀ (s t : Block) (c : Fin 4), column s c = column t c →
    column (mixColumns s) c = column (mixColumns t) c ∧ column (invMixColumns s) c = column (invMixColumns t) c) ∧
  (∀ i : Fin 16, ∃ j l : Fin 16, j.val % 4 = i.val % 4 ∧ l.val % 4 = i.val % 4 ∧
    ∀ s : Block, (shiftRows s)[i] = s[j] ∧ (invShiftRows s)[i] = s[l])

/-- R34: round-key addition XORs state byte `4c + r` with byte `r` of schedule word `4·round + c`. -/
def Obligations.RoundKeyAlignment : Prop :=
  ∀ (s : Block) (w : List Word) (round : Nat) (r c : Fin 4),
    (addRoundKey s (roundKey w round))[4 * c.val + r.val] =
      s[4 * c.val + r.val] ^^^ (wordAt w (4 * round + c.val))[r.val]

/-! ### The key schedule -/

/-- R87, R33: the recurrence of the key schedule, for the three legal pairs and every key. -/
def Obligations.ScheduleRecurrence : Prop :=
  ∀ (key : List Byte) (nk nr : Nat), LegalSizes nk nr → key.length = 4 * nk →
    (keyExpansion key nk nr).length = 4 * (nr + 1) ∧
    (∀ (i : Nat) (j : Fin 4), i < nk → key[4 * i + j.val]? = some (wordAt (keyExpansion key nk nr) i)[j.val]) ∧
    (∀ i, nk ≤ i → i < 4 * (nr + 1) →
      wordAt (keyExpansion key nk nr) i =
        xorWord (wordAt (keyExpansion key nk nr) (i - nk))
          (let temp := wordAt (keyExpansion key nk nr) (i - 1)
           if i % nk = 0 then addRcon (rcon (i / nk - 1)) (subWord (rotWord temp))
           else if nk > 6 ∧ i % nk = 4 then subWord temp
           else temp))

/-- R86: the ten round constants are the powers of 0x02 in the field. -/
def Obligations.RoundConstantsArePowers : Prop :=
  rcon 0 = 0x01 ∧ (∀ j : Fin 9, rcon (j.val + 1) = gfDouble (rcon j.val)) ∧
  (∀ j : Fin 10, rcon j.val = gfPow 0x02 j.val) ∧
  rconTable = [0x01, 0x02, 0x04, 0x08, 0x10, 0x20, 0x40, 0x80, 0x1B, 0x36]

/-- R91: from `EXPAND` to the completion `KS` holds the schedule of the command's key, whatever the host does. -/
def Obligations.ScheduleHeldByEveryStep : Prop :=
  ∀ s t : State, Inv s → ScheduleHeld s → step s = .next t → ScheduleHeld t

/-! ### Whole commands -/

/-- R99: decryption inverts encryption, for every block, every supported key size and every key. -/
def Obligations.DecryptInvertsEncrypt : Prop :=
  ∀ (nk nr : Nat) (key : List Byte) (block : Block), LegalSizes nk nr → key.length = 4 * nk →
    inverseCipher (cipher block nk nr key) nk nr key = block

/-- The converse, which the spec derives (44_cipher_orchestration.md section 3): `inverse_cipher` is defined on every
block, and encryption inverts it. -/
def Obligations.EncryptInvertsDecrypt : Prop :=
  ∀ (nk nr : Nat) (key : List Byte) (block : Block), LegalSizes nk nr → key.length = 4 * nk →
    cipher (inverseCipher block nk nr key) nk nr key = block

/-- R95: a `CIPHER` command from its `CMD` write to its completion: after exactly `4·Nr + 2` turns of the core `DOUT` is
`cipher` of the operands as they stood at the write, `BUSY` is 0 and `DONE` is 1; until then `BUSY` is 1, `DONE` is 0 and
`DOUT` keeps the previous result; the operands keep their values. The count of core turns is R106's, which the spec marks as
derived; that each engine operation is a turn of its own is the model's choice among those R105 permits
(notes/assumptions 2). -/
def Obligations.CipherCommandComputesCipher : Prop :=
  ∀ s : State, s.status.busy = false → ValidOperands s →
    ∃ (t : State) (ks : Schedule), exec .cipher s = .next t ∧
      coreTurns (4 * s.nrNat + 2) t = .next { s with
        dout := cipher s.din s.nkNat s.nrNat s.keyNow
        st := cipher s.din s.nkNat s.nrNat s.keyNow
        ks := ks
        cfg := ⟨s.nk, s.nr⟩
        status := ⟨false, true, .none⟩
        seq := .atRest } ∧
      ∀ k, k < 4 * s.nrNat + 2 →
        ∃ m, coreTurns k t = .next m ∧ m.status = ⟨true, false, .none⟩ ∧ m.dout = s.dout

/-- R96: the same of an `INVCIPHER` command and `inverse_cipher`, with the same count of core turns (R106, derived there;
notes/assumptions 2). -/
def Obligations.InvcipherCommandComputesInverse : Prop :=
  ∀ s : State, s.status.busy = false → ValidOperands s →
    ∃ (t : State) (ks : Schedule), exec .invcipher s = .next t ∧
      coreTurns (4 * s.nrNat + 2) t = .next { s with
        dout := inverseCipher s.din s.nkNat s.nrNat s.keyNow
        st := inverseCipher s.din s.nkNat s.nrNat s.keyNow
        ks := ks
        cfg := ⟨s.nk, s.nr⟩
        status := ⟨false, true, .none⟩
        seq := .atRest } ∧
      ∀ k, k < 4 * s.nrNat + 2 →
        ∃ m, coreTurns k t = .next m ∧ m.status = ⟨true, false, .none⟩ ∧ m.dout = s.dout

/-- R109, R14: the result of a command depends on `DIN`, `NK`, `NR` and the first `4·Nk` bytes of `KEY` only: not on the
rest of `KEY`, on an earlier result, or on what `ST`, `KS` and `CFG` held. -/
def Obligations.ResultDependsOnOperandsOnly : Prop :=
  ∀ (i : Instr) (s s' t t' u u' : State), s.status.busy = false → s'.status.busy = false → ValidOperands s →
    s'.nk = s.nk → s'.nr = s.nr → s'.din = s.din → (∀ j : Fin 32, j.val < 4 * s.nkNat → s'.key[j] = s.key[j]) →
    exec i s = .next t → exec i s' = .next t' →
    coreTurns (4 * s.nrNat + 2) t = .next u → coreTurns (4 * s.nrNat + 2) t' = .next u' →
    u'.dout = u.dout ∧ u.status.done = true ∧ u'.status.done = true

/-- R41 (3), R126: while a command is in flight a turn of the host, whatever it does short of a reset, changes nothing the
core holds. -/
def Obligations.BusyHostTurnIsInvisible : Prop :=
  ∀ s : State, s.status.busy = true → nextAgent s = .host → ¬ HostDoes .reset s →
    ∃ t, step s = .next t ∧ SameCore s t

/-- R41, R105: the interleaving does not matter. While a command stays in flight and the host applies no reset, what the
core holds after `n` steps, under any schedule and any host actions, is what it holds after some `k ≤ n` turns of the
core alone. -/
def Obligations.InterleavingDoesNotMatter : Prop :=
  ∀ (n : Nat) (s u : State), .reset ∉ s.env.host →
    (∀ m v, m < n → steps m s = .next v → v.status.busy = true) → steps n s = .next u →
    ∃ k v, k ≤ n ∧ coreTurns k s = .next v ∧ SameCore u v

/-! ### Rules of the whole machine -/

/-- The invariant holds at reset, for any surroundings. -/
def Obligations.InvariantAtReset : Prop :=
  ∀ env : Env, Inv { State.reset with env := env }

/-- The invariant (R21, R24, R25, R94) is kept by every step, of the host and of the core. -/
def Obligations.InvariantKeptByEveryStep : Prop :=
  ∀ s t : State, Inv s → step s = .next t → Inv t

/-- R116: no step fails, faults or hangs: from every state that meets the invariant a step answers a next state. -/
def Obligations.NoStepStops : Prop :=
  ∀ s : State, Inv s → ∃ t, step s = .next t

/-- R21, of every state that a run reaches, under any host actions and any schedule. -/
def Obligations.ReachableStatusValues : Prop :=
  ∀ s : State, Reachable s →
    (s.status.busy = true → s.status.done = false ∧ s.status.err = .none) ∧
    (s.status.done = true → s.status.busy = false ∧ s.status.err = .none) ∧
    (s.status.err ≠ .none → s.status.busy = false ∧ s.status.done = false) ∧
    (s.status.busy = true ↔ s.seq.op ≠ .none) ∧
    (s.status.toByte = 0x00 ∨ s.status.toByte = 0x01 ∨ s.status.toByte = 0x02 ∨ s.status.toByte = 0x04 ∨
      s.status.toByte = 0x08 ∨ s.status.toByte = 0x0C)

/-- R20: what sets and clears each flag: a command written while idle, accepted or rejected with the code of the first
failed check; the completion, at which `ERR` keeps its value and that value is 0; reset; and any other step leaves all
three. That an event is a step whose turn and action come from lists in `env` is the model's own (notes/assumptions 3 and
4). -/
def Obligations.FlagsChangeOnlyAtEvents : Prop :=
  ∀ s t : State, Inv s → step s = .next t →
    (∀ v : Byte, fetchCommand s = some v → s.status.busy = false →
      t.status =
        if v ≠ 0x01 ∧ v ≠ 0x02 then ⟨false, false, .cmd⟩
        else if s.nk ≠ 4 ∧ s.nk ≠ 6 ∧ s.nk ≠ 8 then ⟨false, false, .keylen⟩
        else if s.nr.toNat ≠ s.nk.toNat + 6 then ⟨false, false, .rounds⟩
        else ⟨true, false, .none⟩) ∧
    (Completes s → t.status = ⟨false, true, s.status.err⟩ ∧ s.status.err = .none) ∧
    (HostDoes .reset s → t.status = ⟨false, false, .none⟩) ∧
    ((fetchCommand s = none ∨ s.status.busy = true) → ¬ Completes s → ¬ HostDoes .reset s → t.status = s.status)

/-- R15: `DOUT` changes at a completion, all 16 bytes at once, and at reset, and at no other step; R22, R23: `ST` and `KS`
change in the core's own steps and at reset only. -/
def Obligations.ResultAndHiddenStateWrites : Prop :=
  ∀ s t : State, step s = .next t →
    (t.dout = s.dout ∨ (Completes s ∧ t.dout = s.st) ∨ (HostDoes .reset s ∧ t.dout = zeroBlock)) ∧
    ((t.st = s.st ∧ t.ks = s.ks) ∨ CoreWorks s ∨ HostDoes .reset s)

/-- R13, R14, R16, R17: `DIN`, `KEY`, `NK` and `NR` change by a host write made while idle and by reset only; the core never
writes them. -/
def Obligations.OperandsChangeOnlyByHost : Prop :=
  ∀ s t : State, step s = .next t → ¬ HostDoes .reset s →
    (t.din = s.din ∧ t.key = s.key ∧ t.nk = s.nk ∧ t.nr = s.nr) ∨
    (s.status.busy = false ∧ ∃ (r : Reg) (v : Byte), HostDoes (.wr r.offset v) s ∧
      ((r = .nk ∧ t = { afterFetch s with nk := v }) ∨ (r = .nr ∧ t = { afterFetch s with nr := v }) ∨
       (∃ i : Fin 16, r = .din i ∧ t = { afterFetch s with din := s.din.set i v }) ∨
       (∃ i : Fin 32, r = .key i ∧ t = { afterFetch s with key := s.key.set i v })))

/-- R123, R124: reset, at any time, a command in flight or not: every register the spec gives a value takes it, the core is
idle, and what `ST`, `KS` and `CFG` hold is left open. -/
def Obligations.ResetActionEffect : Prop :=
  ∀ s : State, HostDoes .reset s →
    ∃ t, step s = .next t ∧ t.din = zeroBlock ∧ t.key = zeroKey ∧ t.dout = zeroBlock ∧ t.nk = 0x00 ∧ t.nr = 0x00 ∧
      t.status = ⟨false, false, .none⟩ ∧ t.seq = ⟨.none, .idle, 0⟩ ∧ coreTurn t = .next t

/-- R28: the values the spec gives for reset; every byte of the register space reads 0x00. -/
def Obligations.ResetValues : Prop :=
  (∀ i : Fin 16, State.reset.din[i] = 0x00 ∧ State.reset.dout[i] = 0x00) ∧
  (∀ i : Fin 32, State.reset.key[i] = 0x00) ∧
  State.reset.nk = 0x00 ∧ State.reset.nr = 0x00 ∧ State.reset.status = ⟨false, false, .none⟩ ∧
  State.reset.seq = ⟨.none, .idle, 0⟩ ∧ (∀ o : Offset, readOffset o State.reset = 0x00)

/-- R119: an error code stays until the next command written while idle, or until reset. -/
def Obligations.ErrorCodePersists : Prop :=
  ∀ s t : State, Inv s → step s = .next t → fetchCommand s = none → ¬ HostDoes .reset s →
    s.status.err ≠ .none → t.status = s.status

/-- R54, R131: `POLL` terminates under every finite schedule: from any state with a command in flight the action is consumed
in the end, with `BUSY` = 0 and `DONE` = 1, within `4·Nr + 3` steps after the schedule's own; every read it made before
the last returned 0x01 and the last one 0x02. The schedule, and that the core moves past its end, are the model's own
choice (notes/assumptions 3), and so is `POLL` as one action (notes/assumptions 16). -/
def Obligations.PollTerminates : Prop :=
  ∀ s : State, Inv s → s.status.busy = true → s.env.host = [.poll] →
    ∃ k n t, k ≤ s.env.sched.length + 4 * s.nrNat + 3 ∧ steps k s = .next t ∧ t.env.host = [] ∧
      t.status = ⟨false, true, .none⟩ ∧
      t.env.responses =
        s.env.responses ++ List.replicate n (Reg.offset .status, 0x01) ++ [(Reg.offset .status, 0x02)]

/-- R54: `LDBLK`, `LDKEY` and `SETSIZE`, run by an idle core, load the registers they name and nothing else. That each of
their writes takes one step of the machine, from a list in `env` with nothing scheduled, is the model's own choice
(notes/assumptions 3 and 4), not the spec's. -/
def Obligations.LoadsFillTheirRegisters : Prop :=
  ∀ (s : State) (op : HostOp) (rest : List HostAction), op.wf = true → s.status.busy = false → inFlight s = false →
    s.env.sched = [] → s.env.host = op.expand ++ rest →
    (∀ h : List Byte, op = .ldblk h → ∃ d : Block, d.toList = h ∧
      steps 16 s = .next { s with din := d, env := { s.env with host := rest } }) ∧
    (∀ h : List Byte, op = .ldkey h → ∃ k : KeyReg, k.toList = h ++ s.key.toList.drop h.length ∧
      steps h.length s = .next { s with key := k, env := { s.env with host := rest } }) ∧
    (∀ nk nr : Byte, op = .setsize nk nr →
      steps 2 s = .next { s with nk := nk, nr := nr, env := { s.env with host := rest } })

/-- R54, R38: one turn of `POLL` is one read of `STATUS`, recorded, that changes nothing the core holds; the action stays
first while the value read has bit 0 = 1, so the read is repeated, and is consumed when the bit is 0. `POLL` as one action
and the record of reads are the model's own choice (notes/assumptions 4 and 16). -/
def Obligations.PollTurnEffect : Prop :=
  ∀ s : State, HostDoes .poll s →
    ∃ t, step s = .next t ∧ SameCore s t ∧
      t.env.responses = s.env.responses ++ [(Reg.offset .status, s.status.toByte)] ∧
      t.env.host = (if s.status.busy = true then s.env.host else s.env.host.tail)
end

