-- ==== Sys2Proof/Laws/State.lean ====
section
/-! SUPPORT. What each named update of the state does to each field, so that no later proof unfolds a record update. -/

namespace Sys2Proof.Machine

/-! ### `clearDone` -/

@[simp] theorem clearDone_din (s : State) : (clearDone s).din = s.din := rfl
@[simp] theorem clearDone_key (s : State) : (clearDone s).key = s.key := rfl
@[simp] theorem clearDone_dout (s : State) : (clearDone s).dout = s.dout := rfl
@[simp] theorem clearDone_nk (s : State) : (clearDone s).nk = s.nk := rfl
@[simp] theorem clearDone_nr (s : State) : (clearDone s).nr = s.nr := rfl
@[simp] theorem clearDone_status (s : State) : (clearDone s).status = s.status.clearDone := rfl
@[simp] theorem clearDone_st (s : State) : (clearDone s).st = s.st := rfl
@[simp] theorem clearDone_ks (s : State) : (clearDone s).ks = s.ks := rfl
@[simp] theorem clearDone_seq (s : State) : (clearDone s).seq = s.seq := rfl
@[simp] theorem clearDone_cfg (s : State) : (clearDone s).cfg = s.cfg := rfl
@[simp] theorem clearDone_env (s : State) : (clearDone s).env = s.env := rfl

/-! ### `raiseError` -/

@[simp] theorem raiseError_din (e : ErrCode) (s : State) : (raiseError e s).din = s.din := rfl
@[simp] theorem raiseError_key (e : ErrCode) (s : State) : (raiseError e s).key = s.key := rfl
@[simp] theorem raiseError_dout (e : ErrCode) (s : State) : (raiseError e s).dout = s.dout := rfl
@[simp] theorem raiseError_nk (e : ErrCode) (s : State) : (raiseError e s).nk = s.nk := rfl
@[simp] theorem raiseError_nr (e : ErrCode) (s : State) : (raiseError e s).nr = s.nr := rfl
@[simp] theorem raiseError_status (e : ErrCode) (s : State) : (raiseError e s).status = s.status.reject e := rfl
@[simp] theorem raiseError_st (e : ErrCode) (s : State) : (raiseError e s).st = s.st := rfl
@[simp] theorem raiseError_ks (e : ErrCode) (s : State) : (raiseError e s).ks = s.ks := rfl
@[simp] theorem raiseError_seq (e : ErrCode) (s : State) : (raiseError e s).seq = s.seq := rfl
@[simp] theorem raiseError_cfg (e : ErrCode) (s : State) : (raiseError e s).cfg = s.cfg := rfl
@[simp] theorem raiseError_env (e : ErrCode) (s : State) : (raiseError e s).env = s.env := rfl

/-! ### `acceptCommand` -/

@[simp] theorem acceptCommand_din (op : SeqOp) (s : State) : (acceptCommand op s).din = s.din := rfl
@[simp] theorem acceptCommand_key (op : SeqOp) (s : State) : (acceptCommand op s).key = s.key := rfl
@[simp] theorem acceptCommand_dout (op : SeqOp) (s : State) : (acceptCommand op s).dout = s.dout := rfl
@[simp] theorem acceptCommand_nk (op : SeqOp) (s : State) : (acceptCommand op s).nk = s.nk := rfl
@[simp] theorem acceptCommand_nr (op : SeqOp) (s : State) : (acceptCommand op s).nr = s.nr := rfl
@[simp] theorem acceptCommand_status (op : SeqOp) (s : State) : (acceptCommand op s).status = s.status.accept := rfl
@[simp] theorem acceptCommand_st (op : SeqOp) (s : State) : (acceptCommand op s).st = s.st := rfl
@[simp] theorem acceptCommand_ks (op : SeqOp) (s : State) : (acceptCommand op s).ks = s.ks := rfl
@[simp] theorem acceptCommand_seq (op : SeqOp) (s : State) : (acceptCommand op s).seq = ⟨op, .expand, 0⟩ := rfl
@[simp] theorem acceptCommand_cfg (op : SeqOp) (s : State) : (acceptCommand op s).cfg = ⟨s.nk, s.nr⟩ := rfl
@[simp] theorem acceptCommand_env (op : SeqOp) (s : State) : (acceptCommand op s).env = s.env := rfl

/-! ### `popTurn` -/

@[simp] theorem popTurn_din (s : State) : (popTurn s).din = s.din := rfl
@[simp] theorem popTurn_key (s : State) : (popTurn s).key = s.key := rfl
@[simp] theorem popTurn_dout (s : State) : (popTurn s).dout = s.dout := rfl
@[simp] theorem popTurn_nk (s : State) : (popTurn s).nk = s.nk := rfl
@[simp] theorem popTurn_nr (s : State) : (popTurn s).nr = s.nr := rfl
@[simp] theorem popTurn_status (s : State) : (popTurn s).status = s.status := rfl
@[simp] theorem popTurn_st (s : State) : (popTurn s).st = s.st := rfl
@[simp] theorem popTurn_ks (s : State) : (popTurn s).ks = s.ks := rfl
@[simp] theorem popTurn_seq (s : State) : (popTurn s).seq = s.seq := rfl
@[simp] theorem popTurn_cfg (s : State) : (popTurn s).cfg = s.cfg := rfl
@[simp] theorem popTurn_env (s : State) : (popTurn s).env = { s.env with sched := s.env.sched.tail } := rfl

/-! ### `popAction` -/

@[simp] theorem popAction_din (s : State) : (popAction s).din = s.din := rfl
@[simp] theorem popAction_key (s : State) : (popAction s).key = s.key := rfl
@[simp] theorem popAction_dout (s : State) : (popAction s).dout = s.dout := rfl
@[simp] theorem popAction_nk (s : State) : (popAction s).nk = s.nk := rfl
@[simp] theorem popAction_nr (s : State) : (popAction s).nr = s.nr := rfl
@[simp] theorem popAction_status (s : State) : (popAction s).status = s.status := rfl
@[simp] theorem popAction_st (s : State) : (popAction s).st = s.st := rfl
@[simp] theorem popAction_ks (s : State) : (popAction s).ks = s.ks := rfl
@[simp] theorem popAction_seq (s : State) : (popAction s).seq = s.seq := rfl
@[simp] theorem popAction_cfg (s : State) : (popAction s).cfg = s.cfg := rfl
@[simp] theorem popAction_env (s : State) : (popAction s).env = { s.env with host := s.env.host.tail } := rfl

/-! ### `afterFetch` -/

@[simp] theorem afterFetch_din (s : State) : (afterFetch s).din = s.din := rfl
@[simp] theorem afterFetch_key (s : State) : (afterFetch s).key = s.key := rfl
@[simp] theorem afterFetch_dout (s : State) : (afterFetch s).dout = s.dout := rfl
@[simp] theorem afterFetch_nk (s : State) : (afterFetch s).nk = s.nk := rfl
@[simp] theorem afterFetch_nr (s : State) : (afterFetch s).nr = s.nr := rfl
@[simp] theorem afterFetch_status (s : State) : (afterFetch s).status = s.status := rfl
@[simp] theorem afterFetch_st (s : State) : (afterFetch s).st = s.st := rfl
@[simp] theorem afterFetch_ks (s : State) : (afterFetch s).ks = s.ks := rfl
@[simp] theorem afterFetch_seq (s : State) : (afterFetch s).seq = s.seq := rfl
@[simp] theorem afterFetch_cfg (s : State) : (afterFetch s).cfg = s.cfg := rfl
@[simp] theorem afterFetch_env (s : State) :
    (afterFetch s).env = { s.env with host := s.env.host.tail, sched := s.env.sched.tail } := rfl

/-! ### `respond` -/

@[simp] theorem respond_din (o : Offset) (v : Byte) (s : State) : (respond o v s).din = s.din := rfl
@[simp] theorem respond_key (o : Offset) (v : Byte) (s : State) : (respond o v s).key = s.key := rfl
@[simp] theorem respond_dout (o : Offset) (v : Byte) (s : State) : (respond o v s).dout = s.dout := rfl
@[simp] theorem respond_nk (o : Offset) (v : Byte) (s : State) : (respond o v s).nk = s.nk := rfl
@[simp] theorem respond_nr (o : Offset) (v : Byte) (s : State) : (respond o v s).nr = s.nr := rfl
@[simp] theorem respond_status (o : Offset) (v : Byte) (s : State) : (respond o v s).status = s.status := rfl
@[simp] theorem respond_st (o : Offset) (v : Byte) (s : State) : (respond o v s).st = s.st := rfl
@[simp] theorem respond_ks (o : Offset) (v : Byte) (s : State) : (respond o v s).ks = s.ks := rfl
@[simp] theorem respond_seq (o : Offset) (v : Byte) (s : State) : (respond o v s).seq = s.seq := rfl
@[simp] theorem respond_cfg (o : Offset) (v : Byte) (s : State) : (respond o v s).cfg = s.cfg := rfl
@[simp] theorem respond_env (o : Offset) (v : Byte) (s : State) :
    (respond o v s).env = { s.env with responses := s.env.responses ++ [(o, v)] } := rfl

/-! ### `advance` -/

@[simp] theorem advance_din (s : State) (b : Block) (q : SeqPos) : (s.advance b q).din = s.din := rfl
@[simp] theorem advance_key (s : State) (b : Block) (q : SeqPos) : (s.advance b q).key = s.key := rfl
@[simp] theorem advance_dout (s : State) (b : Block) (q : SeqPos) : (s.advance b q).dout = s.dout := rfl
@[simp] theorem advance_nk (s : State) (b : Block) (q : SeqPos) : (s.advance b q).nk = s.nk := rfl
@[simp] theorem advance_nr (s : State) (b : Block) (q : SeqPos) : (s.advance b q).nr = s.nr := rfl
@[simp] theorem advance_status (s : State) (b : Block) (q : SeqPos) : (s.advance b q).status = s.status := rfl
@[simp] theorem advance_st (s : State) (b : Block) (q : SeqPos) : (s.advance b q).st = b := rfl
@[simp] theorem advance_ks (s : State) (b : Block) (q : SeqPos) : (s.advance b q).ks = s.ks := rfl
@[simp] theorem advance_seq (s : State) (b : Block) (q : SeqPos) : (s.advance b q).seq = q := rfl
@[simp] theorem advance_cfg (s : State) (b : Block) (q : SeqPos) : (s.advance b q).cfg = s.cfg := rfl
@[simp] theorem advance_env (s : State) (b : Block) (q : SeqPos) : (s.advance b q).env = s.env := rfl

/-! ### `expandStep` -/

@[simp] theorem expandStep_din (s : State) : (expandStep s).din = s.din := by dsimp only [expandStep]
@[simp] theorem expandStep_key (s : State) : (expandStep s).key = s.key := by dsimp only [expandStep]
@[simp] theorem expandStep_dout (s : State) : (expandStep s).dout = s.dout := by dsimp only [expandStep]
@[simp] theorem expandStep_nk (s : State) : (expandStep s).nk = s.nk := by dsimp only [expandStep]
@[simp] theorem expandStep_nr (s : State) : (expandStep s).nr = s.nr := by dsimp only [expandStep]
@[simp] theorem expandStep_status (s : State) : (expandStep s).status = s.status := by dsimp only [expandStep]
@[simp] theorem expandStep_st (s : State) : (expandStep s).st = s.st := by dsimp only [expandStep]
@[simp] theorem expandStep_ks (s : State) : (expandStep s).ks = storeSchedule s.commandSchedule s.ks := rfl
@[simp] theorem expandStep_seq (s : State) : (expandStep s).seq = ⟨s.seq.op, .init, 0⟩ := rfl
@[simp] theorem expandStep_cfg (s : State) : (expandStep s).cfg = s.cfg := by dsimp only [expandStep]
@[simp] theorem expandStep_env (s : State) : (expandStep s).env = s.env := by dsimp only [expandStep]

/-! ### `storeStep` -/

@[simp] theorem storeStep_din (s : State) : (storeStep s).din = s.din := rfl
@[simp] theorem storeStep_key (s : State) : (storeStep s).key = s.key := rfl
@[simp] theorem storeStep_dout (s : State) : (storeStep s).dout = s.st := rfl
@[simp] theorem storeStep_nk (s : State) : (storeStep s).nk = s.nk := rfl
@[simp] theorem storeStep_nr (s : State) : (storeStep s).nr = s.nr := rfl
@[simp] theorem storeStep_status (s : State) : (storeStep s).status = s.status.complete := rfl
@[simp] theorem storeStep_st (s : State) : (storeStep s).st = s.st := rfl
@[simp] theorem storeStep_ks (s : State) : (storeStep s).ks = s.ks := rfl
@[simp] theorem storeStep_seq (s : State) : (storeStep s).seq = .atRest := rfl
@[simp] theorem storeStep_cfg (s : State) : (storeStep s).cfg = s.cfg := rfl
@[simp] theorem storeStep_env (s : State) : (storeStep s).env = s.env := rfl

/-! ### `resetCore` -/

@[simp] theorem resetCore_din (s : State) : (resetCore s).din = zeroBlock := rfl
@[simp] theorem resetCore_key (s : State) : (resetCore s).key = zeroKey := rfl
@[simp] theorem resetCore_dout (s : State) : (resetCore s).dout = zeroBlock := rfl
@[simp] theorem resetCore_nk (s : State) : (resetCore s).nk = 0x00 := rfl
@[simp] theorem resetCore_nr (s : State) : (resetCore s).nr = 0x00 := rfl
@[simp] theorem resetCore_status (s : State) : (resetCore s).status = .atReset := rfl
@[simp] theorem resetCore_st (s : State) : (resetCore s).st = Config.stAfterReset s.env.resets := rfl
@[simp] theorem resetCore_ks (s : State) : (resetCore s).ks = Config.ksAfterReset s.env.resets := rfl
@[simp] theorem resetCore_seq (s : State) : (resetCore s).seq = .atRest := rfl
@[simp] theorem resetCore_cfg (s : State) :
    (resetCore s).cfg = ⟨Config.nklAfterReset s.env.resets, Config.nrlAfterReset s.env.resets⟩ := rfl
@[simp] theorem resetCore_env (s : State) : (resetCore s).env = { s.env with resets := s.env.resets + 1 } := rfl

/-! ### The flags -/

@[simp] theorem clearDone_flags (b d : Bool) (e : ErrCode) : Status.clearDone ⟨b, d, e⟩ = ⟨b, false, e⟩ := rfl
@[simp] theorem accept_flags (b d : Bool) (e : ErrCode) : Status.accept ⟨b, d, e⟩ = ⟨true, d, .none⟩ := rfl
@[simp] theorem reject_flags (b d : Bool) (e e' : ErrCode) : Status.reject ⟨b, d, e⟩ e' = ⟨b, d, e'⟩ := rfl
@[simp] theorem complete_flags (b d : Bool) (e : ErrCode) : Status.complete ⟨b, d, e⟩ = ⟨false, true, e⟩ := rfl

end Sys2Proof.Machine
end

