-- ==== Sys2Proof/Laws/Engines.lean ====
section
/-! SUPPORT. The bytes of what each round engine returns, the shape of the key schedule, and small facts of field
arithmetic: the lemmas later proofs cite in place of the engines' definitions. -/

namespace Sys2Proof.Machine

/-! ### Round engines, byte by byte -/

@[simp] theorem subBytes_getElem (s : Block) (i : Nat) (h : i < 16) : (subBytes s)[i] = sbox s[i] := by
  simp [subBytes]

@[simp] theorem invSubBytes_getElem (s : Block) (i : Nat) (h : i < 16) : (invSubBytes s)[i] = invSbox s[i] := by
  simp [invSubBytes]

@[simp] theorem addRoundKey_getElem (s k : Block) (i : Nat) (h : i < 16) : (addRoundKey s k)[i] = s[i] ^^^ k[i] := by
  simp [addRoundKey]

theorem shiftRows_getElem (s : Block) (i : Nat) (h : i < 16) :
    (shiftRows s)[i] = s[4 * ((i / 4 + i % 4) % 4) + i % 4]'(by omega) := by
  simp [shiftRows]

theorem invShiftRows_getElem (s : Block) (i : Nat) (h : i < 16) :
    (invShiftRows s)[i] = s[4 * ((i / 4 + 4 - i % 4) % 4) + i % 4]'(by omega) := by
  simp [invShiftRows]

theorem column_getElem (s : Block) (c : Fin 4) (j : Nat) (h : j < 4) :
    (column s c)[j] = s[4 * c.val + j]'(by omega) := by
  match j, h with
  | 0, _ => rfl
  | 1, _ => rfl
  | 2, _ => rfl
  | 3, _ => rfl

/-- Two states with the same columns are equal. -/
theorem block_ext_column {s t : Block} (h : ∀ c, column s c = column t c) : s = t := by
  refine Vector.ext fun i hi => ?_
  have e : 4 * (i / 4) + i % 4 = i := by omega
  have hc := congrArg (fun w : Word => w[i % 4]'(by omega)) (h ⟨i / 4, by omega⟩)
  simpa only [column_getElem, e] using hc

theorem ofColumns_getElem (f : Fin 4 → Word) (i : Nat) (h : i < 16) :
    (ofColumns f)[i] = (f ⟨i / 4, by omega⟩)[i % 4]'(by omega) := by
  simp [ofColumns]

/-- Column `c` of the state made of the columns `f` is `f c`. -/
@[simp] theorem column_ofColumns (f : Fin 4 → Word) (c : Fin 4) : column (ofColumns f) c = f c := by
  refine Vector.ext fun j hj => ?_
  rw [column_getElem, ofColumns_getElem]
  have h1 : (4 * c.val + j) / 4 = c.val := by omega
  have h2 : (4 * c.val + j) % 4 = j := by omega
  simp only [h1, h2]

@[simp] theorem column_mixColumns (s : Block) (c : Fin 4) : column (mixColumns s) c = mixColumn (column s c) := by
  simp [mixColumns]

@[simp] theorem column_invMixColumns (s : Block) (c : Fin 4) :
    column (invMixColumns s) c = invMixColumn (column s c) := by
  simp [invMixColumns]

/-! ### The key schedule -/

theorem expandFrom_length (nk n : Nat) (w : List Word) : (expandFrom nk n w).length = w.length + n := by
  induction n generalizing w with
  | zero => rfl
  | succ n ih => rw [expandFrom, ih]; simp; omega

/-- The words already there are not changed by later ones. -/
theorem expandFrom_prefix (nk n : Nat) (w : List Word) : w <+: expandFrom nk n w := by
  induction n generalizing w with
  | zero => exact List.prefix_refl w
  | succ n ih => exact (List.prefix_append w _).trans (ih _)

theorem storeSchedule_getElem (w : List Word) (ks : Schedule) (i : Nat) (h : i < 60) :
    (storeSchedule w ks)[i] = w.getD i ks[i] := by
  simp [storeSchedule]

theorem roundKey_getElem (w : List Word) (round i : Nat) (h : i < 16) :
    (roundKey w round)[i] = (wordAt w (4 * round + i / 4))[i % 4]'(by omega) := by
  simp [roundKey]

/-! ### Field arithmetic -/

/-- Doubling is additive. -/
theorem gfDouble_xor (a b : Byte) : gfDouble (a ^^^ b) = gfDouble a ^^^ gfDouble b := by
  have e : (a ^^^ b) <<< 1 = a <<< 1 ^^^ b <<< 1 := BitVec.shiftLeft_xor_distrib a b 1
  simp only [gfDouble, BitVec.getLsbD_xor, e]
  generalize a <<< 1 = x
  generalize b <<< 1 = y
  cases a.getLsbD 7 <;> cases b.getLsbD 7
  · simp
  · simp [BitVec.xor_assoc]
  · simp only [Bool.true_bne, Bool.not_false, if_true, Bool.false_eq_true, if_false]
    rw [BitVec.xor_assoc, BitVec.xor_assoc, BitVec.xor_comm y]
  · simp only [bne_self_eq_false, Bool.false_eq_true, if_false, if_true]
    rw [BitVec.xor_comm y, ← BitVec.xor_assoc (x ^^^ reductionByte), BitVec.xor_assoc x, BitVec.xor_self, BitVec.xor_zero]

end Sys2Proof.Machine
end

