-- ==== Sys2Proof/Laws/Ops.lean ====
section
/-! SUPPORT. What each shared operation can do, said once: the commands, the host's writes, the host's turn, the core's
turn, and the step. Later proofs cite these and do not unfold the operations. -/

namespace Sys2Proof.Machine

/-! ### Operands -/

theorem keyLenLegal_iff (nk : Byte) : keyLenLegal nk = true ↔ nk = 4 ∨ nk = 6 ∨ nk = 8 := by
  simp [keyLenLegal, or_assoc]

theorem roundsLegal_iff (nk nr : Byte) : roundsLegal nk nr = true ↔ nr.toNat = nk.toNat + 6 := by
  simp [roundsLegal]

theorem legalPair_iff_sizes (nk nr : Byte) : legalPair nk nr = true ↔ LegalSizes nk.toNat nr.toNat := by
  simp only [legalPair, Bool.and_eq_true, keyLenLegal_iff, roundsLegal_iff, LegalSizes]
  constructor
  · rintro ⟨rfl | rfl | rfl, h⟩ <;> simp_all
  · rintro (⟨h, h'⟩ | ⟨h, h'⟩ | ⟨h, h'⟩)
    all_goals
      refine ⟨?_, by omega⟩
      simp only [← BitVec.toNat_inj, h]
      decide

theorem legalPair_iff_validOperands (s : State) : legalPair s.nk s.nr = true ↔ ValidOperands s := by
  rw [legalPair_iff_sizes]
  simp only [LegalSizes, ValidOperands, ← BitVec.toNat_inj]
  rfl

/-! ### Commands -/

/-- Everything a legal opcode written to `CMD` can do. -/
theorem startCommand_eq (op : SeqOp) (s : State) :
    startCommand op s =
      if s.status.busy = true then s
      else if keyLenLegal s.nk = true then
        if roundsLegal s.nk s.nr = true then
          { s with status := ⟨true, false, .none⟩, cfg := ⟨s.nk, s.nr⟩, seq := ⟨op, .expand, 0⟩ }
        else { s with status := ⟨false, false, .rounds⟩ }
      else { s with status := ⟨false, false, .keylen⟩ } := by
  rcases s with ⟨_, _, _, nk, nr, ⟨busy, _, _⟩, _, _, _, _, _⟩
  cases busy <;> rfl

/-- Everything an illegal opcode written to `CMD` can do. -/
theorem rejectOpcode_eq (s : State) :
    rejectOpcode s = if s.status.busy = true then s else { s with status := ⟨false, false, .cmd⟩ } := by
  rcases s with ⟨_, _, _, _, _, ⟨busy, _, _⟩, _, _, _, _, _⟩
  cases busy <;> rfl

/-- The direction a command selects. -/
def opOf : Instr → SeqOp
  | .cipher => .enc
  | .invcipher => .dec

theorem exec_eq (i : Instr) (s : State) : exec i s = .next (startCommand (opOf i) s) := by
  cases i <;> rfl

theorem decodeOpcode_cases (v : Byte) :
    (v = 0x01 ∧ decodeOpcode v = .command .cipher) ∨ (v = 0x02 ∧ decodeOpcode v = .command .invcipher) ∨
    (v ≠ 0x01 ∧ v ≠ 0x02 ∧ decodeOpcode v = .rejected (.illegalOpcode v)) := by
  by_cases h1 : v = 0x01
  · subst h1; exact .inl ⟨rfl, rfl⟩
  by_cases h2 : v = 0x02
  · subst h2; exact .inr (.inl ⟨rfl, rfl⟩)
  refine .inr (.inr ⟨h1, h2, ?_⟩)
  have hm : v &&& 0xFF#8 = v := BitVec.and_allOnes
  have e1 : (v == 1#8) = false := beq_eq_false_iff_ne.mpr h1
  have e2 : (v == 2#8) = false := beq_eq_false_iff_ne.mpr h2
  simp [decodeOpcode, opcodeTable, List.find?, hm, e1, e2]

/-- Every write of `CMD` answers a next state. -/
theorem command_eq (v : Byte) (s : State) :
    command v s = .next (
      if v = 0x01 then startCommand .enc s
      else if v = 0x02 then startCommand .dec s
      else rejectOpcode s) := by
  rcases decodeOpcode_cases v with ⟨rfl, h⟩ | ⟨rfl, h⟩ | ⟨h1, h2, h⟩
  · rfl
  · rfl
  · rw [command, h, if_neg h1, if_neg h2]

/-- What a write of `CMD` changes: `STATUS`, `CFG` and `SEQ` at most. -/
theorem command_cases (v : Byte) (s : State) :
    ∃ t, command v s = .next t ∧
      ((s.status.busy = true ∧ t = s) ∨
       (s.status.busy = false ∧ ∃ e, e ≠ .none ∧ t = { s with status := ⟨false, false, e⟩ }) ∨
       (s.status.busy = false ∧ legalPair s.nk s.nr = true ∧ ∃ op, op ≠ .none ∧
         t = { s with status := ⟨true, false, .none⟩, cfg := ⟨s.nk, s.nr⟩, seq := ⟨op, .expand, 0⟩ })) := by
  have start : ∀ op : SeqOp, op ≠ .none →
      (s.status.busy = true ∧ startCommand op s = s) ∨
      (s.status.busy = false ∧ ∃ e, e ≠ .none ∧ startCommand op s = { s with status := ⟨false, false, e⟩ }) ∨
      (s.status.busy = false ∧ legalPair s.nk s.nr = true ∧ ∃ op, op ≠ .none ∧
        startCommand op s =
          { s with status := ⟨true, false, .none⟩, cfg := ⟨s.nk, s.nr⟩, seq := ⟨op, .expand, 0⟩ }) := by
    intro op hop
    by_cases hb : s.status.busy = true
    · exact .inl ⟨hb, by rw [startCommand_eq, if_pos hb]⟩
    have hb' : s.status.busy = false := by simpa using hb
    by_cases hk : keyLenLegal s.nk = true
    · by_cases hr : roundsLegal s.nk s.nr = true
      · refine .inr (.inr ⟨hb', by simp [legalPair, hk, hr], op, hop, ?_⟩)
        rw [startCommand_eq, if_neg hb, if_pos hk, if_pos hr]
      · refine .inr (.inl ⟨hb', .rounds, by decide, ?_⟩)
        rw [startCommand_eq, if_neg hb, if_pos hk, if_neg hr]
    · refine .inr (.inl ⟨hb', .keylen, by decide, ?_⟩)
      rw [startCommand_eq, if_neg hb, if_neg hk]
  refine ⟨_, command_eq v s, ?_⟩
  split
  · rcases start .enc (by decide) with h | h | ⟨hb, hl, op, hop, h⟩
    · exact .inl h
    · exact .inr (.inl h)
    · refine .inr (.inr ⟨hb, hl, .enc, by decide, ?_⟩)
      rw [startCommand_eq]; simp_all [legalPair]
  split
  · rcases start .dec (by decide) with h | h | ⟨hb, hl, op, hop, h⟩
    · exact .inl h
    · exact .inr (.inl h)
    · refine .inr (.inr ⟨hb, hl, .dec, by decide, ?_⟩)
      rw [startCommand_eq]; simp_all [legalPair]
  · by_cases hb : s.status.busy = true
    · exact .inl ⟨hb, by rw [rejectOpcode_eq, if_pos hb]⟩
    · exact .inr (.inl ⟨by simpa using hb, .cmd, by decide, by rw [rejectOpcode_eq, if_neg hb]⟩)

end Sys2Proof.Machine
end

