-- ==== Sys2Proof/Laws/PerInstr.lean ====
section
/-! SUPPORT. A fact of every instruction as syntax: it is well formed, it has a row of the opcode table, and its encoding
is the row's pattern, one byte that is not 0x00 (spec/30_encoding.md R45, R46). -/

namespace Sys2Proof.Laws.OpcodeRowOf

open Sys2Proof

/-- The instruction is well formed and its one encoding byte is the pattern of its row of the opcode table. -/
def Statement (i : Instr) : Prop :=
  i.wf = true ∧ encode i = [opcode i] ∧ opcode i ≠ 0x00 ∧ ⟨opcode i, 0xFF, i⟩ ∈ opcodeTable

theorem cipher : Statement .cipher := by unfold Statement; decide

theorem invcipher : Statement .invcipher := by unfold Statement; decide

end Sys2Proof.Laws.OpcodeRowOf
end

