-- ==== Sys2Proof/Laws/Step.lean ====
section
/-! SUPPORT. What a host write, a turn of the host, a turn of the core and a step can do, said once each, and how runs
unfold. -/

namespace Sys2Proof.Machine

/-! ### The register map -/

theorem regAt_cmd (o : Offset) : regAt o = some .cmd ↔ o = Reg.offset .cmd := by
  revert o; decide

theorem regAt_nk (o : Offset) : regAt o = some .nk ↔ o = Reg.offset .nk := by
  revert o; decide

theorem regAt_nr (o : Offset) : regAt o = some .nr ↔ o = Reg.offset .nr := by
  revert o; decide

theorem regAt_din (o : Offset) (i : Fin 16) : regAt o = some (.din i) ↔ o = Reg.offset (.din i) := by
  revert o i; decide

theorem regAt_key (o : Offset) (i : Fin 32) : regAt o = some (.key i) ↔ o = Reg.offset (.key i) := by
  revert o i; decide +kernel

/-! ### A host write -/

/-- Everything a host write can do: nothing; a command, at `CMD`; or one stored byte. -/
theorem memWrite_cases (f : Byte → State → Host.Outcome State Fault Refusal) (o : Offset) (v : Byte) (s : State) :
    memWrite f o v s = .next s ∨
    (s.status.busy = false ∧ o = Reg.offset .cmd ∧ memWrite f o v s = f v s) ∨
    (s.status.busy = false ∧ o = Reg.offset .nk ∧ memWrite f o v s = .next { s with nk := v }) ∨
    (s.status.busy = false ∧ o = Reg.offset .nr ∧ memWrite f o v s = .next { s with nr := v }) ∨
    (s.status.busy = false ∧ ∃ i, o = Reg.offset (.din i) ∧
      memWrite f o v s = .next { s with din := s.din.set i v }) ∨
    (s.status.busy = false ∧ ∃ i, o = Reg.offset (.key i) ∧
      memWrite f o v s = .next { s with key := s.key.set i v }) := by
  by_cases hb : s.status.busy = true
  · exact .inl (by rw [memWrite, if_pos hb])
  have hb' : s.status.busy = false := by simpa using hb
  rw [memWrite, if_neg hb]
  split <;> rename_i h
  · exact .inr (.inl ⟨hb', (regAt_cmd o).1 h, rfl⟩)
  · exact .inr (.inr (.inl ⟨hb', (regAt_nk o).1 h, rfl⟩))
  · exact .inr (.inr (.inr (.inl ⟨hb', (regAt_nr o).1 h, rfl⟩)))
  · exact .inr (.inr (.inr (.inr (.inl ⟨hb', _, (regAt_din o _).1 h, rfl⟩))))
  · exact .inr (.inr (.inr (.inr (.inr ⟨hb', _, (regAt_key o _).1 h, rfl⟩))))
  all_goals exact .inl rfl

theorem memWrite_of_busy (f : Byte → State → Host.Outcome State Fault Refusal) (o : Offset) (v : Byte) {s : State}
    (h : s.status.busy = true) : memWrite f o v s = .next s := by
  rw [memWrite, if_pos h]

/-! ### A turn of the host -/

/-- A read and a poll change the surroundings only. -/
theorem hostPoll_core (s : State) : SameCore s (hostPoll s) := by
  unfold hostPoll SameCore
  dsimp only
  split <;> rfl

/-- Bit 0 of a read of `STATUS` is `BUSY`. -/
theorem readOffset_status_busy (s : State) : (readOffset (Reg.offset .status) s).getLsbD 0 = s.status.busy := by
  have bit0 : ∀ f : Status, f.toByte.getLsbD 0 = f.busy := by
    rintro ⟨busy, done, err⟩
    cases busy <;> cases done <;> cases err <;> decide
  exact bit0 s.status

/-- Everything a turn of `POLL` does: a read of `STATUS`, and the action is consumed when the core is idle. -/
theorem hostPoll_eq (s : State) :
    hostPoll s =
      if s.status.busy = true then hostRead (Reg.offset .status) s
      else popAction (hostRead (Reg.offset .status) s) := by
  unfold hostPoll
  rw [readOffset_status_busy]

/-- Everything a turn of the host can do, and that it always answers a next state. -/
theorem hostTurn_cases (s : State) :
    ∃ t, hostTurn command s = .next t ∧
      (SameCore s t ∨
       (s.env.host.head? = some .reset ∧ t = resetCore (popAction s)) ∨
       (s.status.busy = false ∧ ∃ o v, s.env.host.head? = some (.wr o v) ∧
         ((o = Reg.offset .cmd ∧ command v (popAction s) = .next t) ∨
          (o = Reg.offset .nk ∧ t = { popAction s with nk := v }) ∨
          (o = Reg.offset .nr ∧ t = { popAction s with nr := v }) ∨
          (∃ i, o = Reg.offset (.din i) ∧ t = { popAction s with din := s.din.set i v }) ∨
          (∃ i, o = Reg.offset (.key i) ∧ t = { popAction s with key := s.key.set i v })))) := by
  have key : ∀ a rest, s.env.host = a :: rest → s.env.host.head? = some a := fun a rest h => by rw [h]; rfl
  unfold hostTurn
  split <;> rename_i h
  · exact ⟨s, rfl, .inl rfl⟩
  · exact ⟨_, rfl, .inl rfl⟩
  · rename_i o v _
    rcases memWrite_cases command o v (popAction s) with e | ⟨hb, ho, e⟩ | ⟨hb, ho, e⟩ | ⟨hb, ho, e⟩ | ⟨hb, i, ho, e⟩ |
      ⟨hb, i, ho, e⟩
    · exact ⟨_, e, .inl rfl⟩
    · obtain ⟨t, ht, -⟩ := command_cases v (popAction s)
      exact ⟨t, e.trans ht, .inr (.inr ⟨hb, o, v, key _ _ h, .inl ⟨ho, ht⟩⟩)⟩
    · exact ⟨_, e, .inr (.inr ⟨hb, o, v, key _ _ h, .inr (.inl ⟨ho, rfl⟩)⟩)⟩
    · exact ⟨_, e, .inr (.inr ⟨hb, o, v, key _ _ h, .inr (.inr (.inl ⟨ho, rfl⟩))⟩)⟩
    · exact ⟨_, e, .inr (.inr ⟨hb, o, v, key _ _ h, .inr (.inr (.inr (.inl ⟨i, ho, rfl⟩)))⟩)⟩
    · exact ⟨_, e, .inr (.inr ⟨hb, o, v, key _ _ h, .inr (.inr (.inr (.inr ⟨i, ho, rfl⟩)))⟩)⟩
  · exact ⟨_, rfl, .inl (hostPoll_core s)⟩
  · exact ⟨_, rfl, .inr (.inl ⟨key _ _ h, rfl⟩)⟩

/-! ### A turn of the core -/

/-- Everything a turn of the core can do. -/
theorem coreTurn_cases {s t : State} (h : coreTurn s = .next t) :
    (s.seq.op = .none ∧ t = s) ∨
    (s.seq.op = .enc ∧ legalPair s.cfg.nkl s.cfg.nrl = true ∧
      encEnabled s.seq.phase s.round s.rounds = true ∧ t = encStep s) ∨
    (s.seq.op = .dec ∧ legalPair s.cfg.nkl s.cfg.nrl = true ∧
      decEnabled s.seq.phase s.round s.rounds = true ∧ t = decStep s) := by
  unfold coreTurn at h
  split at h <;> rename_i hop
  · cases h; exact .inl ⟨hop, rfl⟩
  · split at h
    · split at h
      · cases h; exact .inr (.inl ⟨hop, ‹_›, ‹_›, rfl⟩)
      · cases h
    · cases h
  · split at h
    · split at h
      · cases h; exact .inr (.inr ⟨hop, ‹_›, ‹_›, rfl⟩)
      · cases h
    · cases h

theorem coreTurn_enc {s : State} (hop : s.seq.op = .enc) (hl : legalPair s.cfg.nkl s.cfg.nrl = true)
    (he : encEnabled s.seq.phase s.round s.rounds = true) : coreTurn s = .next (encStep s) := by
  unfold coreTurn; rw [hop]; simp [hl, he]

theorem coreTurn_dec {s : State} (hop : s.seq.op = .dec) (hl : legalPair s.cfg.nkl s.cfg.nrl = true)
    (he : decEnabled s.seq.phase s.round s.rounds = true) : coreTurn s = .next (decStep s) := by
  unfold coreTurn; rw [hop]; simp [hl, he]

/-- What every turn of the core keeps: the operands and the surroundings. -/
theorem coreTurn_keeps {s t : State} (h : coreTurn s = .next t) :
    t.din = s.din ∧ t.key = s.key ∧ t.nk = s.nk ∧ t.nr = s.nr ∧ t.cfg = s.cfg ∧ t.env = s.env := by
  rcases coreTurn_cases h with ⟨-, rfl⟩ | ⟨-, -, -, rfl⟩ | ⟨-, -, -, rfl⟩
  · simp
  · unfold encStep
    split <;> simp [encInitStep, encSubStep, encShiftStep, encMixStep, encAddStep]
  · unfold decStep
    split <;> simp [decInitStep, decSubStep, decShiftStep, decMixStep, decAddStep]

/-! ### The surroundings -/

/-- A turn of the core neither reads nor writes the surroundings. -/
theorem coreTurn_withEnv {s t : State} (e : Env) (h : coreTurn s = .next t) :
    coreTurn { s with env := e } = .next { t with env := e } := by
  rcases coreTurn_cases h with ⟨hop, rfl⟩ | ⟨hop, hl, he, rfl⟩ | ⟨hop, hl, he, rfl⟩
  · unfold coreTurn; dsimp only; rw [hop]
  · rw [coreTurn_enc (s := { s with env := e }) hop hl he]
    unfold encStep; dsimp only
    cases s.seq.phase <;> rfl
  · rw [coreTurn_dec (s := { s with env := e }) hop hl he]
    unfold decStep; dsimp only
    cases s.seq.phase <;> rfl

theorem SameCore.trans {s t u : State} (h : SameCore s t) (h' : SameCore t u) : SameCore s u := by
  rw [h', h]; rfl

theorem sameCore_popTurn (s : State) : SameCore s (popTurn s) := rfl

theorem sameCore_popAction (s : State) : SameCore s (popAction s) := rfl

/-! ### A step and runs of steps -/

theorem step_of_core {s : State} (h : nextAgent s = .core) : step s = coreTurn (popTurn s) := by
  unfold step; rw [h]

theorem step_of_host {s : State} (h : nextAgent s = .host) : step s = hostTurn command (popTurn s) := by
  unfold step; rw [h]

theorem agent_cases (s : State) : nextAgent s = .core ∨ nextAgent s = .host := by
  cases nextAgent s <;> simp

theorem run_eq_steps (n : Nat) (s : State) : Host.Core.run core n s = steps n s := by
  induction n generalizing s with
  | zero => rfl
  | succ n ih =>
    refine (Host.Core.run.eq_2 core s n).trans ?_
    have e : core.step s = step s := rfl
    rw [e, steps]
    cases step s with
    | next t => exact ih t
    | fault r => rfl
    | refused r => rfl

theorem steps_succ {n : Nat} {s t : State} (h : step s = .next t) : steps (n + 1) s = steps n t := by
  rw [steps, h]

theorem coreTurns_succ {n : Nat} {s t : State} (h : coreTurn s = .next t) : coreTurns (n + 1) s = coreTurns n t := by
  rw [coreTurns, h]

theorem coreTurns_add {m n : Nat} {s t : State} (h : coreTurns m s = .next t) :
    coreTurns (m + n) s = coreTurns n t := by
  induction m generalizing s with
  | zero => cases h; rw [Nat.zero_add]
  | succ m ih =>
    rw [coreTurns] at h
    rw [Nat.add_right_comm, coreTurns]
    split at h
    · exact ih h
    · cases h
    · cases h

end Sys2Proof.Machine
end

