-- ==== Sys2Proof/Tests/Slice0.lean ====
section
/-! SUPPORT. Tests. Expected values come from the spec: spec/95_test_vectors.md and spec/96_test_vectors_cipher_programs.md,
and the examples of the rules; the source of each is named. Then, for every statement with hypotheses, a witness that
meets them all together. -/

namespace Sys2Proof.Tests

open Sys2Proof Sys2Proof.Machine

/-! ### Well-formedness: an ill-formed term for each check -/

theorem test_wf_ldblk_short : (HostOp.ldblk [0x32, 0x43]).wf = false := by decide
theorem test_wf_ldblk_ok : (HostOp.ldblk (List.replicate 16 0x00)).wf = true := by decide
theorem test_wf_ldkey_20_bytes : (HostOp.ldkey (List.replicate 20 0x00)).wf = false := by decide
theorem test_wf_ldkey_24_bytes : (HostOp.ldkey (List.replicate 24 0x00)).wf = true := by decide
theorem test_wf_commands : Instr.cipher.wf = true ∧ Instr.invcipher.wf = true := by decide

/-! ### Decoding, from the words of R46 written out bit by bit -/

theorem test_decode_cipher : decode [0b00000001#8] = .command (.cipher, []) := by decide
theorem test_decode_invcipher : decode [0b00000010#8] = .command (.invcipher, []) := by decide
theorem test_decode_zero_is_no_command : decodeOpcode 0b00000000#8 = .rejected (.illegalOpcode 0x00) := by decide
theorem test_decode_bit7_is_decoded : decodeOpcode 0b10000001#8 = .rejected (.illegalOpcode 0x81) := by decide
theorem test_decode_nothing : decode [] = .rejected .noByte := by decide
theorem test_decodeTableWord : decodeTableWord 8 1 = some .cipher ∧ decodeTableWord 8 2 = some .invcipher ∧
    decodeTableWord 8 3 = none := by decide
/-- R46: the rows of the opcode map do not overlap. -/
theorem test_rows_disjoint :
    opcodeTable.Pairwise fun a b => ∀ v : Byte, ¬ (v &&& a.mask = a.pattern ∧ v &&& b.mask = b.pattern) := by
  decide +kernel

/-! ### Field arithmetic (95 sections 2 and 3) -/

theorem test_rotl8 : rotl8 0xca 1 = 0x95 ∧ rotl8 0xca 4 = 0xac ∧ rotl8 0xca 0 = 0xca := by decide
theorem test_gfDouble : gfDouble 0xae = 0x47 ∧ gfDouble 0x7f = 0xfe ∧ gfDouble 0x80 = 0x1b := by decide
theorem test_gfMul : gfMul 0x57 0x13 = 0xfe ∧ gfMul 0x80 0x80 = 0x9a ∧ gfMul 0x0e 0x0b = 0x62 := by decide
theorem test_gfPow : gfPow 0x02 9 = 0x36 ∧ gfPow 0x00 0 = 0x01 ∧ gfPow 0x03 4 = 0x11 := by decide
theorem test_gfInv : gfInv 0x53 = 0xca ∧ gfInv 0x00 = 0x00 ∧ gfInv 0xff = 0x1c := by decide +kernel

/-! ### Substitution box (95 section 4) -/

theorem test_sbox : sbox 0x53 = 0xed ∧ sbox 0x00 = 0x63 ∧ sbox 0xf0 = 0x8c ∧ sbox 0xec = 0xce := by decide +kernel
theorem test_invSbox : invSbox 0xed = 0x53 ∧ invSbox 0x63 = 0x00 ∧ invSbox 0x00 = 0x52 := by decide +kernel

/-! ### Round transformations (95 section 5) -/

theorem test_subBytes :
    subBytes #v[0x00, 0x01, 0x02, 0x03, 0x04, 0x05, 0x06, 0x07, 0x08, 0x09, 0x0a, 0x0b, 0x0c, 0x0d, 0x0e, 0x0f] =
      #v[0x63, 0x7c, 0x77, 0x7b, 0xf2, 0x6b, 0x6f, 0xc5, 0x30, 0x01, 0x67, 0x2b, 0xfe, 0xd7, 0xab, 0x76] := by decide +kernel
theorem test_invSubBytes :
    invSubBytes #v[0x00, 0x01, 0x02, 0x03, 0x04, 0x05, 0x06, 0x07, 0x08, 0x09, 0x0a, 0x0b, 0x0c, 0x0d, 0x0e, 0x0f] =
      #v[0x52, 0x09, 0x6a, 0xd5, 0x30, 0x36, 0xa5, 0x38, 0xbf, 0x40, 0xa3, 0x9e, 0x81, 0xf3, 0xd7, 0xfb] := by decide +kernel
theorem test_shiftRows :
    shiftRows #v[0x00, 0x01, 0x02, 0x03, 0x04, 0x05, 0x06, 0x07, 0x08, 0x09, 0x0a, 0x0b, 0x0c, 0x0d, 0x0e, 0x0f] =
      #v[0x00, 0x05, 0x0a, 0x0f, 0x04, 0x09, 0x0e, 0x03, 0x08, 0x0d, 0x02, 0x07, 0x0c, 0x01, 0x06, 0x0b] := by decide +kernel
theorem test_invShiftRows :
    invShiftRows #v[0x00, 0x01, 0x02, 0x03, 0x04, 0x05, 0x06, 0x07, 0x08, 0x09, 0x0a, 0x0b, 0x0c, 0x0d, 0x0e, 0x0f] =
      #v[0x00, 0x0d, 0x0a, 0x07, 0x04, 0x01, 0x0e, 0x0b, 0x08, 0x05, 0x02, 0x0f, 0x0c, 0x09, 0x06, 0x03] := by decide +kernel
theorem test_mixColumn : mixColumn #v[0xdb, 0x13, 0x53, 0x45] = #v[0x8e, 0x4d, 0xa1, 0xbc] := by decide +kernel
theorem test_invMixColumn : invMixColumn #v[0x8e, 0x4d, 0xa1, 0xbc] = #v[0xdb, 0x13, 0x53, 0x45] := by decide +kernel
theorem test_mixColumns :
    mixColumns #v[0xd4, 0xbf, 0x5d, 0x30, 0xe0, 0xb4, 0x52, 0xae, 0xb8, 0x41, 0x11, 0xf1, 0x1e, 0x27, 0x98, 0xe5] =
      #v[0x04, 0x66, 0x81, 0xe5, 0xe0, 0xcb, 0x19, 0x9a, 0x48, 0xf8, 0xd3, 0x7a, 0x28, 0x06, 0x26, 0x4c] := by decide +kernel
theorem test_invMixColumns :
    invMixColumns #v[0x00, 0x01, 0x02, 0x03, 0x04, 0x05, 0x06, 0x07, 0x08, 0x09, 0x0a, 0x0b, 0x0c, 0x0d, 0x0e, 0x0f] =
      #v[0x0a, 0x0f, 0x08, 0x0d, 0x0e, 0x0b, 0x0c, 0x09, 0x02, 0x07, 0x00, 0x05, 0x06, 0x03, 0x04, 0x01] := by decide +kernel
theorem test_addRoundKey :
    addRoundKey #v[0x32, 0x43, 0xf6, 0xa8, 0x88, 0x5a, 0x30, 0x8d, 0x31, 0x31, 0x98, 0xa2, 0xe0, 0x37, 0x07, 0x34]
      #v[0x2b, 0x7e, 0x15, 0x16, 0x28, 0xae, 0xd2, 0xa6, 0xab, 0xf7, 0x15, 0x88, 0x09, 0xcf, 0x4f, 0x3c] =
      #v[0x19, 0x3d, 0xe3, 0xbe, 0xa0, 0xf4, 0xe2, 0x2b, 0x9a, 0xc6, 0x8d, 0x2a, 0xe9, 0xf8, 0x48, 0x08] := by decide +kernel

/-! ### Key schedule (95 section 6) -/

theorem test_rotWord : rotWord #v[0x09, 0xcf, 0x4f, 0x3c] = #v[0xcf, 0x4f, 0x3c, 0x09] := by decide
theorem test_subWord : subWord #v[0xcf, 0x4f, 0x3c, 0x09] = #v[0x8a, 0x84, 0xeb, 0x01] := by decide +kernel
theorem test_rcon : rcon 0 = 0x01 ∧ rcon 8 = 0x1B ∧ rcon 9 = 0x36 := by decide
/-- K2, i = 48: the branch with rotation and round constant at Nk = 6. -/
theorem test_scheduleTemp_nk6 : scheduleTemp 6 48 #v[0xd8, 0xae, 0xda, 0x32] = #v[0x64, 0x57, 0x23, 0x61] := by decide +kernel
/-- K3, i = 12: substitution alone at Nk = 8. -/
theorem test_scheduleTemp_nk8 : scheduleTemp 8 12 #v[0xa5, 0x72, 0xc0, 0x9c] = #v[0x06, 0x40, 0xba, 0xde] := by decide +kernel
/-- K2, i = 10: no change at Nk = 6, `i mod 6 = 4`. -/
theorem test_scheduleTemp_nk6_plain : scheduleTemp 6 10 #v[0x58, 0x47, 0xf0, 0xfa] = #v[0x58, 0x47, 0xf0, 0xfa] := by decide +kernel
/-- K1, round key 1. -/
theorem test_roundKey :
    roundKey (keyExpansion [0x2b, 0x7e, 0x15, 0x16, 0x28, 0xae, 0xd2, 0xa6, 0xab, 0xf7, 0x15, 0x88, 0x09, 0xcf, 0x4f, 0x3c] 4 1) 1 =
      #v[0xa0, 0xfa, 0xfe, 0x17, 0x88, 0x54, 0x2c, 0xb1, 0x23, 0xa3, 0x39, 0x39, 0x2a, 0x6c, 0x76, 0x05] := by decide +kernel

/-! ### The two functions (95 V1, the source's known-answer test; 96 V4) -/

theorem test_cipher_known_answer :
    cipher #v[0x32, 0x43, 0xf6, 0xa8, 0x88, 0x5a, 0x30, 0x8d, 0x31, 0x31, 0x98, 0xa2, 0xe0, 0x37, 0x07, 0x34] 4 10
      [0x2b, 0x7e, 0x15, 0x16, 0x28, 0xae, 0xd2, 0xa6, 0xab, 0xf7, 0x15, 0x88, 0x09, 0xcf, 0x4f, 0x3c] =
      #v[0x39, 0x25, 0x84, 0x1d, 0x02, 0xdc, 0x09, 0xfb, 0xdc, 0x11, 0x85, 0x97, 0x19, 0x6a, 0x0b, 0x32] := by decide +kernel

theorem test_inverseCipher_aes256 :
    inverseCipher #v[0x8e, 0xa2, 0xb7, 0xca, 0x51, 0x67, 0x45, 0xbf, 0xea, 0xfc, 0x49, 0x90, 0x4b, 0x49, 0x60, 0x89] 8 14
      [0x00, 0x01, 0x02, 0x03, 0x04, 0x05, 0x06, 0x07, 0x08, 0x09, 0x0a, 0x0b, 0x0c, 0x0d, 0x0e, 0x0f,
       0x10, 0x11, 0x12, 0x13, 0x14, 0x15, 0x16, 0x17, 0x18, 0x19, 0x1a, 0x1b, 0x1c, 0x1d, 0x1e, 0x1f] =
      #v[0x00, 0x11, 0x22, 0x33, 0x44, 0x55, 0x66, 0x77, 0x88, 0x99, 0xaa, 0xbb, 0xcc, 0xdd, 0xee, 0xff] := by decide +kernel

/-! ### Small states -/

/-- An idle state with (`NK`, `NR`) set and the given flags. -/
def idle (nk nr : Byte) (f : Status) : State := { State.reset with nk := nk, nr := nr, status := f }

/-- The flags of an idle core whose last command completed. -/
def doneFlags : Status := ⟨false, true, .none⟩

/-- The flags of a core with a command in flight. -/
def busyFlags : Status := ⟨true, false, .none⟩

/-- An AES-128 command in flight at a sequencer position. -/
def busyAt (q : SeqPos) : State :=
  { State.reset with nk := 4, nr := 10, cfg := ⟨4, 10⟩, status := busyFlags, seq := q }

/-- The same, with surroundings. -/
def withEnv (s : State) (host : List HostAction) (sched : List Agent) : State :=
  { s with env := ⟨host, sched, [], 0⟩ }

/-- What the test looks at in an outcome. -/
def look {α : Type} (f : State → α) : Host.Outcome State Fault Refusal → Option α
  | .next s => some (f s)
  | .fault _ => none
  | .refused _ => none

/-! ### Commands and errors (96 section 8): the `STATUS` byte after the write of `CMD` -/

/-- The `STATUS` byte after byte `v` is written to `CMD`. -/
def statusAfter (v : Byte) (s : State) : Option Byte := look (fun t => t.status.toByte) (memWrite command 0x00 v s)

theorem test_command_at_reset : statusAfter 0x01 State.reset = some 0x04 := by decide
theorem test_command_accepted : statusAfter 0x01 (idle 0x06 0x0C doneFlags) = some 0x01 := by decide
theorem test_command_opcode_first : statusAfter 0x07 (idle 0x05 0x63 .atReset) = some 0x0C := by decide
theorem test_command_nk_before_nr : statusAfter 0x01 (idle 0x05 0x63 .atReset) = some 0x04 := by decide
theorem test_command_nk_all_bits : statusAfter 0x01 (idle 0x84 0x0A .atReset) = some 0x04 := by decide
theorem test_command_nr_all_bits : statusAfter 0x01 (idle 0x04 0x8A .atReset) = some 0x08 := by decide
theorem test_command_error_replaced : statusAfter 0x02 (idle 0x00 0x00 ⟨false, false, .cmd⟩) = some 0x04 := by decide
theorem test_command_bit7 : statusAfter 0x81 (idle 0x04 0x0A doneFlags) = some 0x0C := by decide
theorem test_command_busy_ignored : statusAfter 0x02 (busyAt ⟨.enc, .sub, 3⟩) = some 0x01 := by decide

theorem test_cipher_starts_encrypt :
    look (fun t => (t.seq, t.cfg)) (exec .cipher (idle 4 10 .atReset)) = some (⟨.enc, .expand, 0⟩, ⟨4, 10⟩) := by decide
theorem test_invcipher_starts_decrypt :
    look (fun t => (t.seq, t.cfg)) (exec .invcipher (idle 8 14 .atReset)) = some (⟨.dec, .expand, 0⟩, ⟨8, 14⟩) := by
  decide

/-! ### The register space (96 section 8) -/

theorem test_write_nk_any_byte :
    look (fun t => readOffset 0x02 t) (memWrite command 0x02 0xAB State.reset) = some 0xAB := by decide
theorem test_write_status_ignored :
    look (fun t => readOffset 0x01 t) (memWrite command 0x01 0xFF State.reset) = some 0x00 := by decide
theorem test_write_dout_ignored :
    look (fun t => readOffset 0x40 t) (memWrite command 0x40 0x55 State.reset) = some 0x00 := by decide
theorem test_write_din :
    look (fun t => (readOffset 0x13 t, readOffset 0x12 t)) (memWrite command 0x13 0x9C State.reset) =
      some (0x9C, 0x00) := by decide
theorem test_write_key_last :
    look (fun t => readOffset 0x3F t) (memWrite command 0x3F 0x77 (idle 4 10 .atReset)) = some 0x77 := by decide
theorem test_read_cmd_is_zero : readOffset 0x00 (idle 4 10 doneFlags) = 0x00 := by decide
theorem test_read_status_done : readOffset 0x01 (idle 4 10 doneFlags) = 0x02 := by decide

/-! ### The sequencer (96 section 7, V1) -/

theorem test_step_encrypt_final_shift_skips_mix :
    look (fun t => t.seq) (coreTurn (busyAt ⟨.enc, .shift, 10⟩)) = some ⟨.enc, .add, 10⟩ := by decide
theorem test_step_encrypt_add_next_round :
    look (fun t => t.seq) (coreTurn (busyAt ⟨.enc, .add, 9⟩)) = some ⟨.enc, .sub, 10⟩ := by decide
theorem test_step_decrypt_init_round :
    look (fun t => t.seq) (coreTurn (busyAt ⟨.dec, .init, 0⟩)) = some ⟨.dec, .shift, 9⟩ := by decide
theorem test_step_decrypt_mix_after_add :
    look (fun t => t.seq) (coreTurn (busyAt ⟨.dec, .add, 1⟩)) = some ⟨.dec, .mix, 1⟩ := by decide
/-- The row SUB 1 of V1's encryption trace. -/
theorem test_step_encrypt_sub :
    look (fun t => t.st) (coreTurn { busyAt ⟨.enc, .sub, 1⟩ with
      st := #v[0x19, 0x3d, 0xe3, 0xbe, 0xa0, 0xf4, 0xe2, 0x2b, 0x9a, 0xc6, 0x8d, 0x2a, 0xe9, 0xf8, 0x48, 0x08] }) =
      some #v[0xd4, 0x27, 0x11, 0xae, 0xe0, 0xbf, 0x98, 0xf1, 0xb8, 0xb4, 0x5d, 0xe5, 0x1e, 0x41, 0x52, 0x30] := by decide +kernel
/-- The row MIX 9 of V1's decryption trace. -/
theorem test_step_decrypt_mix :
    look (fun t => t.st) (coreTurn { busyAt ⟨.dec, .mix, 9⟩ with
      st := #v[0x47, 0x37, 0x94, 0xed, 0x40, 0xd4, 0xe4, 0xa5, 0xa3, 0x70, 0x3a, 0xa6, 0x4c, 0x9f, 0x42, 0xbc] }) =
      some #v[0x87, 0x6e, 0x46, 0xa6, 0xf2, 0x4c, 0xe7, 0x8c, 0x4d, 0x90, 0x4a, 0xd8, 0x97, 0xec, 0xc3, 0x95] := by decide +kernel
/-- R104: the completion publishes all of `ST` with the flags. -/
theorem test_step_store :
    look (fun t => (t.dout, t.status.toByte, t.seq)) (coreTurn { busyAt ⟨.enc, .store, 10⟩ with
      st := #v[0x39, 0x25, 0x84, 0x1d, 0x02, 0xdc, 0x09, 0xfb, 0xdc, 0x11, 0x85, 0x97, 0x19, 0x6a, 0x0b, 0x32] }) =
      some (#v[0x39, 0x25, 0x84, 0x1d, 0x02, 0xdc, 0x09, 0xfb, 0xdc, 0x11, 0x85, 0x97, 0x19, 0x6a, 0x0b, 0x32],
        0x02, .atRest) := by decide

/-! ### Turns of the host, one step each (96 section 9) -/

/-- P5, interleaving A: a write of `DIN[0]` while busy is ignored. -/
theorem test_host_write_while_busy :
    look (fun t => (readOffset 0x10 t, t.env.host)) (step (withEnv (busyAt ⟨.enc, .sub, 1⟩) [.wr 0x10 0x55] [.host])) =
      some (0x00, []) := by decide
/-- P1: a poll while busy reads 0x01 and stays. -/
theorem test_poll_while_busy :
    look (fun t => t.env) (step (withEnv (busyAt ⟨.enc, .sub, 1⟩) [.poll] [.host])) =
      some ⟨[.poll], [], [(0x01, 0x01)], 0⟩ := by decide
/-- P1: a poll after the completion reads 0x02 and ends. -/
theorem test_poll_when_done :
    look (fun t => t.env) (step (withEnv (idle 4 10 doneFlags) [.poll] [])) = some ⟨[], [], [(0x01, 0x02)], 0⟩ := by
  decide
/-- P6: reset during a command; the flags, `NK` and the sequencer afterwards. -/
theorem test_reset_while_busy :
    look (fun t => (t.status.toByte, t.nk, t.seq)) (step (withEnv (busyAt ⟨.dec, .mix, 3⟩) [.reset] [.host])) =
      some (0x00, 0x00, .atRest) := by decide
/-- The placed word is what the next step runs, from reset: `CIPHER` with `NK` = 0 is rejected with `ERR_KEYLEN`. -/
theorem test_placed_word_at_reset :
    look (fun t => t.status.toByte) (step (State.reset.withFetchWord 8 1)) = some 0x04 := by decide
/-- R54: the expansion of `SETSIZE 4, 10`. -/
theorem test_expand_setsize : (HostOp.setsize 4 10).expand = [.wr 0x02 4, .wr 0x03 10] := by decide
/-- R54, P1: the first and the last transaction of `RDOUT`. -/
theorem test_expand_rdout : HostOp.rdout.expand.head? = some (.rd 0x40) ∧ HostOp.rdout.expand.getLast? = some (.rd 0x4F) := by
  decide

/-! ### Witnesses: for each statement with hypotheses, states and operands that meet all of them -/

theorem inv_of_idle {nk nr : Byte} : Inv (idle nk nr .atReset) :=
  ⟨by simp [idle, Status.atReset, Status.Legal], rfl, by simp [idle, Status.atReset], by simp [idle, Status.atReset], rfl⟩

theorem inv_busy_enc (p : Phase) (r : BitVec 4) (h : EncPosition p r.toNat 10) : Inv (busyAt ⟨.enc, p, r⟩) :=
  ⟨by simp [busyAt, busyFlags, Status.Legal], rfl, fun _ => rfl, fun _ => .inl ⟨rfl, rfl⟩, h⟩

theorem inv_withEnv {s : State} (h : Inv s) (host : List HostAction) (sched : List Agent) : Inv (withEnv s host sched) :=
  ⟨h.flags, h.busy, h.latched, h.pair, h.position⟩

theorem witness_IllegalOpcodeRejected :
    (0x00 : Byte) ≠ 0x01 ∧ (0x00 : Byte) ≠ 0x02 ∧ (0xFF : Byte) ≠ 0x01 ∧ (0xFF : Byte) ≠ 0x02 ∧
    State.reset.status.busy = false := by decide

theorem witness_StepRunsDecodedCommand :
    fetchCommand (withEnv (idle 4 10 .atReset) [.wr 0x00 0x02] []) = some 0x02 ∧
    decodeOpcode 0x02 = .command .invcipher := by decide

theorem witness_StepIsOneTurn :
    nextAgent (busyAt ⟨.enc, .sub, 1⟩) = .core ∧
    HostDoes (.wr 0x7F 0x55) (withEnv (busyAt ⟨.enc, .sub, 1⟩) [.wr 0x7F 0x55] [.host]) ∧
    nextAgent State.reset = .host ∧ State.reset.env.host = [] := ⟨rfl, ⟨rfl, rfl⟩, rfl, rfl⟩

theorem witness_PlacedWordRunsNext : decodeTableWord 8 2 = some .invcipher := by decide

theorem witness_CipherAccepted : (idle 4 10 doneFlags).status.busy = false ∧ ValidOperands (idle 4 10 doneFlags) := by
  decide

theorem witness_InvcipherAccepted : (idle 8 14 .atReset).status.busy = false ∧ ValidOperands (idle 8 14 .atReset) := by
  decide

theorem witness_ValidationIsExact :
    (idle 6 12 .atReset).status.busy = false ∧ ValidOperands (idle 6 12 .atReset) ∧
    ¬ ValidOperands (idle 6 10 .atReset) := by decide

theorem witness_KeyLengthError :
    (idle 5 99 .atReset).status.busy = false ∧ (idle 5 99 .atReset).nk ≠ 4 ∧ (idle 5 99 .atReset).nk ≠ 6 ∧
    (idle 5 99 .atReset).nk ≠ 8 := by decide

theorem witness_RoundCountError :
    (idle 4 11 .atReset).status.busy = false ∧
    ((idle 4 11 .atReset).nk = 4 ∨ (idle 4 11 .atReset).nk = 6 ∨ (idle 4 11 .atReset).nk = 8) ∧
    (idle 4 11 .atReset).nr.toNat ≠ (idle 4 11 .atReset).nk.toNat + 6 := by decide

theorem witness_CommandFrame :
    (∃ t, exec .cipher (idle 4 10 .atReset) = .next t) ∧
    (∃ t, exec .invcipher (busyAt ⟨.enc, .sub, 1⟩) = .next t ∧ (busyAt ⟨.enc, .sub, 1⟩).status.busy = true) :=
  ⟨⟨_, rfl⟩, ⟨_, rfl, rfl⟩⟩

theorem witness_RejectionIsPrecise :
    Inv (idle 4 12 .atReset) ∧ (idle 4 12 .atReset).status.busy = false ∧
    ∃ t, command 0x01 (idle 4 12 .atReset) = .next t ∧ t.status.busy = false :=
  ⟨inv_of_idle, rfl, _, rfl, rfl⟩

theorem witness_RegisterMapExact :
    regAt 0x03 = some .nr ∧ regAt 0x04 = none ∧ regAt 0x0F = none ∧ regAt 0x10 = some (.din 0) ∧
    regAt 0x4F = some (.dout 15) ∧ regAt 0x50 = none ∧ regAt 0x7F = none := by decide

theorem witness_HostReadValue :
    HostDoes (.rd 0x40) (withEnv State.reset [.rd 0x40] []) ∧
    ∃ t, step (busyAt ⟨.enc, .sub, 1⟩) = .next t ∧ t.status.busy = true := ⟨⟨rfl, rfl⟩, _, rfl, rfl⟩

theorem witness_WriteThenRead :
    State.reset.status.busy = false ∧ (0x10 : Offset) ≠ Reg.offset .cmd ∧ (0x3F : Offset) ≠ Reg.offset .cmd ∧
    (0x40 : Offset) ≠ Reg.offset .cmd := by decide

theorem witness_ExpandStepEffect :
    SeqOp.enc ≠ .none ∧ (busyAt ⟨.enc, .expand, 0⟩).seq = ⟨.enc, .expand, 0⟩ ∧
    LegalSizes (busyAt ⟨.enc, .expand, 0⟩).cfg.nkl.toNat (busyAt ⟨.enc, .expand, 0⟩).cfg.nrl.toNat := by decide

theorem witness_InitStepEffect :
    (∃ s : State, LegalSizes s.cfg.nkl.toNat s.cfg.nrl.toNat ∧ s.seq = ⟨.enc, .init, 0⟩) ∧
    (∃ s : State, LegalSizes s.cfg.nkl.toNat s.cfg.nrl.toNat ∧ s.seq = ⟨.dec, .init, 0⟩) :=
  ⟨⟨busyAt ⟨.enc, .init, 0⟩, by decide, rfl⟩, ⟨busyAt ⟨.dec, .init, 0⟩, by decide, rfl⟩⟩

/-- Each clause at the first and at the last round. -/
theorem witness_EncryptSteps :
    ∀ p ∈ [Phase.sub, .shift, .mix, .add], ∀ r ∈ [1#4, 10#4],
      LegalSizes (busyAt ⟨.enc, p, r⟩).cfg.nkl.toNat (busyAt ⟨.enc, p, r⟩).cfg.nrl.toNat ∧ 1 ≤ r.toNat ∧
      r.toNat ≤ (busyAt ⟨.enc, p, r⟩).cfg.nrl.toNat ∧ (busyAt ⟨.enc, p, r⟩).seq = ⟨.enc, p, r⟩ := by decide

/-- Each clause at the last and at the first round it covers. -/
theorem witness_DecryptSteps :
    (∀ p ∈ [Phase.shift, .sub, .add], ∀ r ∈ [9#4, 0#4],
      LegalSizes (busyAt ⟨.dec, p, r⟩).cfg.nkl.toNat (busyAt ⟨.dec, p, r⟩).cfg.nrl.toNat ∧
      r.toNat < (busyAt ⟨.dec, p, r⟩).cfg.nrl.toNat ∧ (busyAt ⟨.dec, p, r⟩).seq = ⟨.dec, p, r⟩) ∧
    (∀ r ∈ [9#4, 1#4], 1 ≤ r.toNat ∧ r.toNat < (busyAt ⟨.dec, .mix, r⟩).cfg.nrl.toNat ∧
      (busyAt ⟨.dec, .mix, r⟩).seq = ⟨.dec, .mix, r⟩) := by decide

theorem witness_StoreStepEffect :
    SeqOp.dec ≠ .none ∧ (busyAt ⟨.dec, .store, 0⟩).seq = ⟨.dec, .store, 0⟩ ∧
    LegalSizes (busyAt ⟨.dec, .store, 0⟩).cfg.nkl.toNat (busyAt ⟨.dec, .store, 0⟩).cfg.nrl.toNat := by decide

theorem witness_IdleCoreWaits :
    inFlight State.reset = false ∧ State.reset.env.host = [] ∧ State.reset.env.sched = [] := by decide

theorem witness_ControlIndependentOfData :
    ∃ s s' t : State, s.seq = s'.seq ∧ s.cfg = s'.cfg ∧ s.st ≠ s'.st ∧ coreTurn s = .next t :=
  ⟨busyAt ⟨.enc, .shift, 2⟩, { busyAt ⟨.enc, .shift, 2⟩ with st := Vector.replicate 16 0x01 }, _, rfl, rfl, by decide, rfl⟩

theorem witness_OutsideTheRulesStops :
    (inFlight (busyAt ⟨.enc, .idle, 0⟩) = true ∧
      LegalSizes (busyAt ⟨.enc, .idle, 0⟩).cfg.nkl.toNat (busyAt ⟨.enc, .idle, 0⟩).cfg.nrl.toNat) ∧
    (inFlight (busyAt ⟨.dec, .mix, 0⟩) = true ∧
      LegalSizes (busyAt ⟨.dec, .mix, 0⟩).cfg.nkl.toNat (busyAt ⟨.dec, .mix, 0⟩).cfg.nrl.toNat) ∧
    (∃ s : State, inFlight s = true ∧ ¬ LegalSizes s.cfg.nkl.toNat s.cfg.nrl.toNat) :=
  ⟨by decide, by decide, ⟨{ busyAt ⟨.enc, .sub, 1⟩ with cfg := ⟨5, 11⟩ }, by decide⟩⟩

theorem witness_GfMulLaws : gfMul 0x00 0xFF = 0x00 := by decide

theorem witness_InverseIsUnique : (0x53 : Byte) ≠ 0x00 ∧ gfMul 0x53 0xCA = 0x01 := by decide

theorem witness_LaneStructure :
    ∃ s t : Block, s ≠ t ∧ s[(5 : Fin 16)] = t[(5 : Fin 16)] ∧ column s 2 = column t 2 :=
  ⟨zeroBlock, zeroBlock.set 0 0x01, by decide, by decide, by decide⟩

theorem witness_ScheduleRecurrence :
    LegalSizes 6 12 ∧ (List.replicate 24 (0x00 : Byte)).length = 4 * 6 ∧ 5 < 6 ∧ 6 ≤ 51 ∧ 51 < 4 * (12 + 1) := by decide

theorem witness_ScheduleHeldByEveryStep :
    ∃ s t : State, Inv s ∧ ScheduleHeld s ∧ step s = .next t ∧ inFlight t = true ∧ t.seq.phase ≠ .expand :=
  ⟨busyAt ⟨.enc, .expand, 0⟩, _, inv_busy_enc .expand 0 rfl, fun _ h => absurd rfl h, rfl, rfl, by decide⟩

theorem witness_DecryptInvertsEncrypt : LegalSizes 8 14 ∧ (List.replicate 32 (0x00 : Byte)).length = 4 * 8 := by decide

theorem witness_EncryptInvertsDecrypt : LegalSizes 4 10 ∧ (List.replicate 16 (0x00 : Byte)).length = 4 * 4 := by decide

theorem witness_CipherCommandComputesCipher :
    (idle 4 10 .atReset).status.busy = false ∧ ValidOperands (idle 4 10 .atReset) ∧
    41 < 4 * (idle 4 10 .atReset).nrNat + 2 := by decide

theorem witness_InvcipherCommandComputesInverse :
    (idle 6 12 .atReset).status.busy = false ∧ ValidOperands (idle 6 12 .atReset) ∧
    49 < 4 * (idle 6 12 .atReset).nrNat + 2 := by decide

theorem witness_BusyHostTurnIsInvisible :
    ∃ s : State, s.status.busy = true ∧ nextAgent s = .host ∧ ¬ HostDoes .reset s :=
  ⟨withEnv (busyAt ⟨.enc, .sub, 1⟩) [.wr 0x10 0x55] [.host], rfl, rfl, fun h => by cases h.2⟩

theorem witness_InterleavingDoesNotMatter :
    ∃ s u : State, .reset ∉ s.env.host ∧ (∀ m v, m < 1 → steps m s = .next v → v.status.busy = true) ∧
      steps 1 s = .next u := by
  refine ⟨withEnv (busyAt ⟨.enc, .sub, 1⟩) [.wr 0x00 0x02] [.host], _, by decide, ?_, rfl⟩
  intro m v hm h
  obtain rfl : m = 0 := by omega
  cases h
  rfl

theorem witness_InvariantKeptByEveryStep :
    (∃ s t : State, Inv s ∧ step s = .next t ∧ s.status.busy = true) ∧
    (∃ s t : State, Inv s ∧ step s = .next t ∧ s.status.busy = false ∧ t.status.busy = true) :=
  ⟨⟨busyAt ⟨.enc, .shift, 3⟩, _, inv_busy_enc .shift 3 ⟨by decide, by decide⟩, rfl, rfl⟩,
   ⟨withEnv (idle 4 10 .atReset) [.wr 0x00 0x01] [], _, inv_withEnv inv_of_idle _ _, rfl, rfl, rfl⟩⟩

theorem witness_NoStepStops : Inv (busyAt ⟨.enc, .add, 10⟩) := inv_busy_enc .add 10 ⟨by decide, by decide⟩

theorem witness_ReachableStatusValues : Reachable State.reset := ⟨.empty, 0, rfl⟩

theorem witness_FlagsChangeOnlyAtEvents :
    (∃ s t : State, Inv s ∧ step s = .next t ∧ Completes s) ∧
    (∃ s t : State, Inv s ∧ step s = .next t ∧ HostDoes .reset s) ∧
    (∃ s t : State, Inv s ∧ step s = .next t ∧ fetchCommand s = some 0x03 ∧ s.status.busy = false) ∧
    (∃ s t : State, Inv s ∧ step s = .next t ∧ (fetchCommand s = none ∨ s.status.busy = true) ∧ ¬ Completes s ∧
      ¬ HostDoes .reset s) :=
  ⟨⟨busyAt ⟨.enc, .store, 10⟩, _, inv_busy_enc .store 10 rfl, rfl, rfl, rfl, rfl⟩,
   ⟨withEnv (busyAt ⟨.enc, .sub, 1⟩) [.reset] [.host], _, inv_withEnv (inv_busy_enc .sub 1 ⟨by decide, by decide⟩) _ _, rfl, rfl, rfl⟩,
   ⟨withEnv (idle 4 10 .atReset) [.wr 0x00 0x03] [], _, inv_withEnv inv_of_idle _ _, rfl, rfl, rfl⟩,
   ⟨withEnv (busyAt ⟨.enc, .sub, 1⟩) [.wr 0x00 0x02] [.host], _, inv_withEnv (inv_busy_enc .sub 1 ⟨by decide, by decide⟩) _ _, rfl,
    .inr rfl, (fun h : Completes _ => nomatch h.1), (fun h : HostDoes .reset _ => nomatch h.2)⟩⟩

theorem witness_ResultAndHiddenStateWrites : ∃ t, step (busyAt ⟨.enc, .store, 10⟩) = .next t := ⟨_, rfl⟩

theorem witness_OperandsChangeOnlyByHost :
    ∃ s t : State, step s = .next t ∧ ¬ HostDoes .reset s ∧ t.key ≠ s.key :=
  ⟨withEnv (idle 4 10 .atReset) [.wr 0x3F 0x77] [], _, rfl, (fun h : HostDoes .reset _ => nomatch h.2), by decide⟩

theorem witness_ResetActionEffect :
    HostDoes .reset (withEnv (busyAt ⟨.enc, .sub, 1⟩) [.reset] [.host]) ∧ HostDoes .reset (withEnv State.reset [.reset] []) :=
  ⟨⟨rfl, rfl⟩, ⟨rfl, rfl⟩⟩

theorem witness_ErrorCodePersists :
    ∃ s t : State, Inv s ∧ step s = .next t ∧ fetchCommand s = none ∧ ¬ HostDoes .reset s ∧ s.status.err ≠ .none := by
  refine ⟨withEnv (idle 4 12 ⟨false, false, .rounds⟩) [.wr 0x03 0x0A] [], _, ?_, rfl, rfl, (fun h : HostDoes .reset _ => nomatch h.2), by decide⟩
  exact ⟨by simp [withEnv, idle, Status.Legal], rfl, by simp [withEnv, idle], by simp [withEnv, idle], rfl⟩

theorem witness_PollTerminates :
    ∃ s : State, Inv s ∧ s.status.busy = true ∧ s.env.host = [.poll] ∧ s.env.sched = [.host, .core, .host] :=
  ⟨withEnv (busyAt ⟨.enc, .expand, 0⟩) [.poll] [.host, .core, .host], inv_withEnv (inv_busy_enc .expand 0 rfl) _ _,
    rfl, rfl, rfl⟩

theorem witness_PollTurnEffect :
    HostDoes .poll (withEnv (busyAt ⟨.enc, .sub, 1⟩) [.poll] [.host]) ∧ HostDoes .poll (withEnv State.reset [.poll] []) :=
  ⟨⟨rfl, rfl⟩, ⟨rfl, rfl⟩⟩

theorem witness_LoadsFillTheirRegisters :
    ∀ op ∈ [HostOp.ldblk (List.replicate 16 0x11), .ldkey (List.replicate 32 0x22), .setsize 4 10],
      op.wf = true ∧ (withEnv State.reset (op.expand ++ [.poll]) []).status.busy = false ∧
      inFlight (withEnv State.reset (op.expand ++ [.poll]) []) = false ∧
      (withEnv State.reset (op.expand ++ [.poll]) []).env.host = op.expand ++ [.poll] := by decide

theorem next_of_look {α : Type} {f : State → α} {a : α} {o : Host.Outcome State Fault Refusal}
    (h : look f o = some a) : ∃ u, o = .next u ∧ f u = a := by
  match o, h with
  | .next u, h => exact ⟨u, rfl, Option.some.inj h⟩

/-- The first of two idle states that agree in the operands of a command. -/
def operandsA : State := idle 4 10 .atReset

/-- The second: it differs in an unused key byte, the last result and the hidden state. -/
def operandsB : State :=
  { operandsA with key := zeroKey.set 31 0x77, dout := Vector.replicate 16 0x02, st := Vector.replicate 16 0x01 }

/-- Both commands start in both states and complete after `4·Nr + 2` turns of the core. -/
theorem witness_ResultDependsOnOperandsOnly :
    (operandsA.status.busy = false ∧ operandsB.status.busy = false ∧ ValidOperands operandsA ∧
      operandsB.nk = operandsA.nk ∧ operandsB.nr = operandsA.nr ∧ operandsB.din = operandsA.din ∧
      (∀ j : Fin 32, j.val < 4 * operandsA.nkNat → operandsB.key[j] = operandsA.key[j]) ∧
      operandsB.key ≠ operandsA.key) ∧
    ∀ i : Instr, ∃ t t' u u' : State, exec i operandsA = .next t ∧ exec i operandsB = .next t' ∧
      coreTurns (4 * operandsA.nrNat + 2) t = .next u ∧ coreTurns (4 * operandsA.nrNat + 2) t' = .next u' := by
  refine ⟨⟨rfl, rfl, .inl ⟨rfl, rfl⟩, rfl, rfl, rfl, by decide, by decide⟩, fun i => ?_⟩
  have run : ∀ s : State, look (fun u => u.status.done) (coreTurns 42 s) = some true → ∃ u, coreTurns 42 s = .next u :=
    fun s h => let ⟨u, hu, _⟩ := next_of_look h; ⟨u, hu⟩
  have e : 4 * operandsA.nrNat + 2 = 42 := rfl
  rw [e]
  cases i <;> rw [exec_eq, exec_eq]
  · obtain ⟨u, hu⟩ := run (startCommand .enc operandsA) (by decide +kernel)
    obtain ⟨u', hu'⟩ := run (startCommand .enc operandsB) (by decide +kernel)
    exact ⟨_, _, u, u', rfl, rfl, hu, hu'⟩
  · obtain ⟨u, hu⟩ := run (startCommand .dec operandsA) (by decide +kernel)
    obtain ⟨u', hu'⟩ := run (startCommand .dec operandsB) (by decide +kernel)
    exact ⟨_, _, u, u', rfl, rfl, hu, hu'⟩

end Sys2Proof.Tests
end

section
/-! PROOFS. The reasoning rules of the register space: which register an offset names, what a read returns, what a
write of one byte changes and what it leaves (spec/20_memory.md R30, R38, R39). -/

namespace Sys2Proof.Machine

/-! ### The register map -/

theorem regAt_eq_some_iff (o : Offset) (r : Reg) : regAt o = some r ↔ o = r.offset := by
  cases r with
  | cmd => exact regAt_cmd o
  | status => revert o; decide
  | nk => exact regAt_nk o
  | nr => exact regAt_nr o
  | din i => exact regAt_din o i
  | key i => exact regAt_key o i
  | dout i => revert o i; decide

@[simp] theorem regAt_offset (r : Reg) : regAt r.offset = some r := (regAt_eq_some_iff _ r).2 rfl

theorem offset_cases (o : Offset) : (∃ r : Reg, o = r.offset) ∨ regAt o = none := by
  cases h : regAt o with
  | none => exact .inr rfl
  | some r => exact .inl ⟨r, (regAt_eq_some_iff o r).1 h⟩

/-! ### What a read returns -/

@[simp] theorem readOffset_cmd (s : State) : readOffset (Reg.offset .cmd) s = 0x00 := rfl
@[simp] theorem readOffset_status (s : State) : readOffset (Reg.offset .status) s = s.status.toByte := rfl
@[simp] theorem readOffset_nk (s : State) : readOffset (Reg.offset .nk) s = s.nk := rfl
@[simp] theorem readOffset_nr (s : State) : readOffset (Reg.offset .nr) s = s.nr := rfl

@[simp] theorem readOffset_din (i : Fin 16) (s : State) : readOffset (Reg.offset (.din i)) s = s.din[i] := by
  rw [readOffset, regAt_offset]

@[simp] theorem readOffset_key (i : Fin 32) (s : State) : readOffset (Reg.offset (.key i)) s = s.key[i] := by
  rw [readOffset, regAt_offset]

@[simp] theorem readOffset_dout (i : Fin 16) (s : State) : readOffset (Reg.offset (.dout i)) s = s.dout[i] := by
  rw [readOffset, regAt_offset]

theorem readOffset_reserved {o : Offset} (h : regAt o = none) (s : State) : readOffset o s = 0x00 := by
  rw [readOffset, h]

/-! ### A stored byte -/

/-- R39: the registers a host write stores a byte in. -/
def Reg.stores : Reg → Bool
  | .nk => true
  | .nr => true
  | .din _ => true
  | .key _ => true
  | .cmd => false
  | .status => false
  | .dout _ => false

/-- R39: what a write of byte `v` made while idle stores; `memWrite_offset` ties it to the write. -/
def storeReg (r : Reg) (v : Byte) (s : State) : State :=
  match r with
  | .nk => { s with nk := v }
  | .nr => { s with nr := v }
  | .din i => { s with din := s.din.set i v }
  | .key i => { s with key := s.key.set i v }
  | .cmd => s
  | .status => s
  | .dout _ => s

/-- The offsets of the storing registers, as the ranges of R30. -/
theorem Reg.stores_iff (r : Reg) :
    r.stores = true ↔
      r.offset.val = 0x02 ∨ r.offset.val = 0x03 ∨ (0x10 ≤ r.offset.val ∧ r.offset.val ≤ 0x3F) := by
  cases r with
  | din i => simp only [Reg.stores, Reg.offset, true_iff]; omega
  | key i => simp only [Reg.stores, Reg.offset, true_iff]; omega
  | dout i => simp only [Reg.stores, Reg.offset, Bool.false_eq_true, false_iff]; omega
  | _ => decide

theorem reserved_not_stored {o : Offset} (h : regAt o = none) :
    ¬ (o.val = 0x02 ∨ o.val = 0x03 ∨ (0x10 ≤ o.val ∧ o.val ≤ 0x3F)) := by
  revert o; decide

section
variable (r : Reg) (v : Byte) (s : State)

@[simp] theorem storeReg_dout : (storeReg r v s).dout = s.dout := by cases r <;> rfl
@[simp] theorem storeReg_status : (storeReg r v s).status = s.status := by cases r <;> rfl
@[simp] theorem storeReg_st : (storeReg r v s).st = s.st := by cases r <;> rfl
@[simp] theorem storeReg_ks : (storeReg r v s).ks = s.ks := by cases r <;> rfl
@[simp] theorem storeReg_seq : (storeReg r v s).seq = s.seq := by cases r <;> rfl
@[simp] theorem storeReg_cfg : (storeReg r v s).cfg = s.cfg := by cases r <;> rfl
@[simp] theorem storeReg_env : (storeReg r v s).env = s.env := by cases r <;> rfl

/-- A write made while idle to a register other than `CMD` stores its byte. -/
theorem memWrite_offset (f : Byte → State → Host.Outcome State Fault Refusal) (hb : s.status.busy = false)
    (hr : r ≠ .cmd) : memWrite f r.offset v s = .next (storeReg r v s) := by
  rw [memWrite, hb, regAt_offset]
  cases r with
  | cmd => exact absurd rfl hr
  | _ => rfl

theorem readOffset_storeReg_same (h : r.stores = true) : readOffset r.offset (storeReg r v s) = v := by
  cases r with
  | nk => rfl
  | nr => rfl
  | din i => simp [storeReg]
  | key i => simp [storeReg]
  | _ => cases h

/-- R12: the registers are distinct storages, and a write to one leaves every other. -/
theorem readOffset_storeReg_of_ne {q : Reg} (h : q ≠ r) :
    readOffset q.offset (storeReg r v s) = readOffset q.offset s := by
  cases r with
  | nk => cases q with
    | nk => exact absurd rfl h
    | _ => simp [storeReg]
  | nr => cases q with
    | nr => exact absurd rfl h
    | _ => simp [storeReg]
  | din i => cases q with
    | din j =>
      have hij : i.val ≠ j.val := fun e => h (by rw [Fin.ext e])
      simp [storeReg, Vector.getElem_set_ne _ _ hij]
    | _ => simp [storeReg]
  | key i => cases q with
    | key j =>
      have hij : i.val ≠ j.val := fun e => h (by rw [Fin.ext e])
      simp [storeReg, Vector.getElem_set_ne _ _ hij]
    | _ => simp [storeReg]
  | _ => rfl

theorem storeReg_of_not_stores (h : ¬ r.stores = true) : storeReg r v s = s := by
  cases r with
  | cmd => rfl
  | status => rfl
  | dout i => rfl
  | _ => exact absurd rfl h

end

theorem memWrite_reserved (f : Byte → State → Host.Outcome State Fault Refusal) {o : Offset} (h : regAt o = none)
    (v : Byte) (s : State) : memWrite f o v s = .next s := by
  rw [memWrite, h]; exact ite_self _

/-- Settles O19, by the register at the offset: a stored byte reads back there and nowhere else; a reserved offset
stores nothing. -/
theorem writeThenRead : Obligations.WriteThenRead := by
  intro o v s hb ho
  rcases offset_cases o with ⟨r, rfl⟩ | hres
  · refine ⟨storeReg r v s, memWrite_offset r v s command hb (fun e => ho (by rw [e])), fun o' ho' => ?_, ?_⟩
    · rcases offset_cases o' with ⟨q, rfl⟩ | hq
      · exact readOffset_storeReg_of_ne r v s fun e => ho' (by rw [e])
      · rw [readOffset_reserved hq, readOffset_reserved hq]
    · by_cases hr : r.stores = true
      · rw [if_pos (r.stores_iff.1 hr), readOffset_storeReg_same r v s hr]
      · rw [if_neg (mt r.stores_iff.2 hr), storeReg_of_not_stores r v s hr]
  · exact ⟨s, memWrite_reserved command hres v s, fun _ _ => rfl, (if_neg (reserved_not_stored hres)).symm⟩

/-! ### The `STATUS` byte and the values at reset -/

/-- R19: the fields of the byte a read of `STATUS` returns. -/
theorem Status.toByte_fields (f : Status) :
    f.toByte.getLsbD 0 = f.busy ∧ f.toByte.getLsbD 1 = f.done ∧
      f.toByte.extractLsb' 2 2 = f.err.code ∧ f.toByte.extractLsb' 4 4 = 0 := by
  obtain ⟨busy, done, err⟩ := f
  cases err <;> revert busy done <;> decide

/-- Settles O16: a read of `STATUS` is its byte, and the fields of the byte are those of the flags. -/
theorem statusByteFields : Obligations.StatusByteFields :=
  ⟨readOffset_status, Status.toByte_fields, by decide, by decide⟩

theorem readOffset_reset (o : Offset) : readOffset o State.reset = 0x00 := by
  rcases offset_cases o with ⟨r, rfl⟩ | h
  · cases r with
    | cmd => rfl
    | status => rfl
    | nk => rfl
    | nr => rfl
    | din i => simp [State.reset, zeroBlock]
    | key i => simp [State.reset, zeroKey]
    | dout i => simp [State.reset, zeroBlock]
  · exact readOffset_reserved h _

/-- Settles O56: the registers by their definition, the register space offset by offset. -/
theorem resetValues : Obligations.ResetValues :=
  ⟨fun i => ⟨by simp [State.reset, zeroBlock], by simp [State.reset, zeroBlock]⟩,
    fun i => by simp [State.reset, zeroKey], rfl, rfl, rfl, rfl, readOffset_reset⟩

end Sys2Proof.Machine
end

section
/-! PROOFS. What a command, a turn of the core and a step can do, each said once as an inversion lemma, and the facts
that follow from it about single registers and flags. -/

namespace Sys2Proof.Machine

theorem next_unique {o : Host.Outcome State Fault Refusal} {s t : State} (hs : o = .next s) (ht : o = .next t) :
    s = t :=
  Host.Outcome.next.inj (hs.symm.trans ht)

/-! ### A write of `CMD` -/

/-- A write of `CMD` changes `STATUS`, `CFG` and `SEQ` at most. -/
theorem command_frame {v : Byte} {s t : State} (h : command v s = .next t) :
    t = { s with status := t.status, cfg := t.cfg, seq := t.seq } := by
  obtain ⟨u, hu, hc⟩ := command_cases v s
  obtain rfl := next_unique hu h
  rcases hc with ⟨-, rfl⟩ | ⟨-, e, -, rfl⟩ | ⟨-, -, op, -, rfl⟩ <;> rfl

/-- R93: the flags after a legal opcode written while idle; the first check that fails decides. -/
theorem startCommand_status (op : SeqOp) {s : State} (hb : s.status.busy = false) :
    (startCommand op s).status =
      if s.nk ≠ 4 ∧ s.nk ≠ 6 ∧ s.nk ≠ 8 then ⟨false, false, .keylen⟩
      else if s.nr.toNat ≠ s.nk.toNat + 6 then ⟨false, false, .rounds⟩
      else ⟨true, false, .none⟩ := by
  rw [startCommand_eq, if_neg (by simp [hb])]
  simp only [keyLenLegal_iff, roundsLegal_iff, ← not_or, ite_not, ne_eq]
  split_ifs <;> rfl

/-- R93: the flags after any byte is written to `CMD` while idle. -/
theorem command_status {v : Byte} {s t : State} (hb : s.status.busy = false) (h : command v s = .next t) :
    t.status =
      if v ≠ 0x01 ∧ v ≠ 0x02 then ⟨false, false, .cmd⟩
      else if s.nk ≠ 4 ∧ s.nk ≠ 6 ∧ s.nk ≠ 8 then ⟨false, false, .keylen⟩
      else if s.nr.toNat ≠ s.nk.toNat + 6 then ⟨false, false, .rounds⟩
      else ⟨true, false, .none⟩ := by
  rw [← next_unique (command_eq v s) h]
  by_cases h1 : v = 0x01
  · rw [if_pos h1, if_neg (fun c => c.1 h1), startCommand_status .enc hb]
  by_cases h2 : v = 0x02
  · rw [if_neg h1, if_pos h2, if_neg (fun c => c.2 h2), startCommand_status .dec hb]
  · rw [if_neg h1, if_neg h2, if_pos ⟨h1, h2⟩, rejectOpcode_eq, if_neg (by simp [hb])]

/-! ### A turn of the core -/

theorem inFlight_iff (s : State) : inFlight s = true ↔ s.seq.op ≠ .none := by
  simp [inFlight]

theorem encStep_result (s : State) :
    (s.seq.phase = .store ∧ encStep s = storeStep s) ∨
    (s.seq.phase ≠ .store ∧ (encStep s).dout = s.dout ∧ (encStep s).status = s.status) := by
  unfold encStep
  split <;> rename_i hp <;> simp [hp, encInitStep, encSubStep, encShiftStep, encMixStep, encAddStep]

theorem decStep_result (s : State) :
    (s.seq.phase = .store ∧ decStep s = storeStep s) ∨
    (s.seq.phase ≠ .store ∧ (decStep s).dout = s.dout ∧ (decStep s).status = s.status) := by
  unfold decStep
  split <;> rename_i hp <;> simp [hp, decInitStep, decSubStep, decShiftStep, decMixStep, decAddStep]

/-- R15, R20: a turn of the core is idle, the completion, or a step that leaves `DOUT` and `STATUS`. -/
theorem coreTurn_result {s t : State} (h : coreTurn s = .next t) :
    (inFlight s = false ∧ t = s) ∨
    (inFlight s = true ∧ s.seq.phase = .store ∧ t = storeStep s) ∨
    (inFlight s = true ∧ s.seq.phase ≠ .store ∧ t.dout = s.dout ∧ t.status = s.status) := by
  rcases coreTurn_cases h with ⟨hop, rfl⟩ | ⟨hop, -, -, rfl⟩ | ⟨hop, -, -, rfl⟩
  · exact .inl ⟨by simp [inFlight, hop], rfl⟩
  · have hf : inFlight s = true := by simp [inFlight, hop]
    exact .inr ((encStep_result s).imp (fun ⟨hp, e⟩ => ⟨hf, hp, e⟩) (fun ⟨hp, e⟩ => ⟨hf, hp, e⟩))
  · have hf : inFlight s = true := by simp [inFlight, hop]
    exact .inr ((decStep_result s).imp (fun ⟨hp, e⟩ => ⟨hf, hp, e⟩) (fun ⟨hp, e⟩ => ⟨hf, hp, e⟩))

/-! ### A step -/

/-- Everything a step can do: a turn of the core; nothing to what the core holds; reset; a command; or one stored
byte. -/
theorem step_cases {s t : State} (h : step s = .next t) :
    (nextAgent s = .core ∧ coreTurn (popTurn s) = .next t) ∨
    (nextAgent s = .host ∧ SameCore s t) ∨
    (HostDoes .reset s ∧ t = resetCore (afterFetch s)) ∨
    (s.status.busy = false ∧ ∃ v, HostDoes (.wr (Reg.offset .cmd) v) s ∧ command v (afterFetch s) = .next t) ∨
    (s.status.busy = false ∧ ∃ r v, r.stores = true ∧ HostDoes (.wr (Reg.offset r) v) s ∧
      t = storeReg r v (afterFetch s)) := by
  rcases agent_cases s with ha | ha
  · exact .inl ⟨ha, step_of_core ha ▸ h⟩
  refine .inr ?_
  obtain ⟨u, hu, hc⟩ := hostTurn_cases (popTurn s)
  obtain rfl := next_unique ((step_of_host ha).trans hu) h
  rcases hc with hs | ⟨hr, rfl⟩ | ⟨hb, o, v, hw, hcase⟩
  · exact .inl ⟨ha, (sameCore_popTurn s).trans hs⟩
  · exact .inr (.inl ⟨⟨ha, hr⟩, rfl⟩)
  have store : ∀ r : Reg, r.stores = true → o = r.offset → u = storeReg r v (afterFetch s) →
      ∃ r v, r.stores = true ∧ HostDoes (.wr (Reg.offset r) v) s ∧ u = storeReg r v (afterFetch s) :=
    fun r hr ho e => ⟨r, v, hr, ⟨ha, ho ▸ hw⟩, e⟩
  rcases hcase with ⟨rfl, hcmd⟩ | ⟨ho, e⟩ | ⟨ho, e⟩ | ⟨i, ho, e⟩ | ⟨i, ho, e⟩
  · exact .inr (.inr (.inl ⟨hb, v, ⟨ha, hw⟩, hcmd⟩))
  · exact .inr (.inr (.inr ⟨hb, store .nk rfl ho e⟩))
  · exact .inr (.inr (.inr ⟨hb, store .nr rfl ho e⟩))
  · exact .inr (.inr (.inr ⟨hb, store (.din i) rfl ho e⟩))
  · exact .inr (.inr (.inr ⟨hb, store (.key i) rfl ho e⟩))

theorem fetchCommand_iff (s : State) (v : Byte) :
    fetchCommand s = some v ↔ HostDoes (.wr (Reg.offset .cmd) v) s := by
  unfold fetchCommand HostDoes
  split <;> rename_i ha hh
  · simp [ha, hh]
  · constructor
    · rintro ⟨⟩
    · rintro ⟨ha, hv⟩
      obtain ⟨rest, hl⟩ := List.head?_eq_some_iff.1 hv
      exact (hh _ _ rest ha hl).elim

/-- A step that performs the host's action `a` is the host's turn on a nonempty list. -/
theorem host_eq_of_hostDoes {a : HostAction} {s : State} (h : HostDoes a s) :
    step s = hostTurn command (popTurn s) ∧ ∃ rest, (popTurn s).env.host = a :: rest := by
  obtain ⟨ha, hh⟩ := h
  exact ⟨step_of_host ha, List.head?_eq_some_iff.1 hh⟩

theorem step_of_write {o : Offset} {v : Byte} {s : State} (h : HostDoes (.wr o v) s) :
    step s = memWrite command o v (afterFetch s) := by
  obtain ⟨hs, rest, hl⟩ := host_eq_of_hostDoes h
  rw [hs, hostTurn, hl]; rfl

theorem step_of_reset {s : State} (h : HostDoes .reset s) : step s = .next (resetCore (afterFetch s)) := by
  obtain ⟨hs, rest, hl⟩ := host_eq_of_hostDoes h
  rw [hs, hostTurn, hl]; rfl

/-- A write of `CMD` made while idle is the command, in the state in which the write is consumed. -/
theorem step_of_command {v : Byte} {s : State} (h : HostDoes (.wr (Reg.offset .cmd) v) s)
    (hb : s.status.busy = false) : step s = command v (afterFetch s) := by
  rw [step_of_write h, memWrite, afterFetch_status, hb, regAt_offset]; rfl

/-- Settles O53, by the cases of a step. -/
theorem resultAndHiddenStateWrites : Obligations.ResultAndHiddenStateWrites := by
  intro s t h
  rcases step_cases h with ⟨ha, hc⟩ | ⟨-, hs⟩ | ⟨hr, rfl⟩ | ⟨-, v, -, hc⟩ | ⟨-, r, v, -, -, rfl⟩
  · rcases coreTurn_result hc with ⟨-, rfl⟩ | ⟨hf, hp, rfl⟩ | ⟨hf, -, hd, -⟩
    · exact ⟨.inl rfl, .inl ⟨rfl, rfl⟩⟩
    · exact ⟨.inr (.inl ⟨⟨ha, hf, hp⟩, rfl⟩), .inr (.inl ⟨ha, hf⟩)⟩
    · exact ⟨.inl hd, .inr (.inl ⟨ha, hf⟩)⟩
  · rw [hs]; exact ⟨.inl rfl, .inl ⟨rfl, rfl⟩⟩
  · exact ⟨.inr (.inr ⟨hr, rfl⟩), .inr (.inr hr)⟩
  · rw [command_frame hc]; exact ⟨.inl rfl, .inl ⟨rfl, rfl⟩⟩
  · simp

/-- Settles O54, by the cases of a step: the core and a command keep the operands, and a stored byte is the write. -/
theorem operandsChangeOnlyByHost : Obligations.OperandsChangeOnlyByHost := by
  intro s t h hreset
  rcases step_cases h with ⟨-, hc⟩ | ⟨-, hs⟩ | ⟨hr, -⟩ | ⟨-, v, -, hc⟩ | ⟨hb, r, v, hst, hw, rfl⟩
  · obtain ⟨hdin, hkey, hnk, hnr, -, -⟩ := coreTurn_keeps hc
    exact .inl ⟨hdin, hkey, hnk, hnr⟩
  · rw [hs]; exact .inl ⟨rfl, rfl, rfl, rfl⟩
  · exact absurd hr hreset
  · rw [command_frame hc]; exact .inl ⟨rfl, rfl, rfl, rfl⟩
  · refine .inr ⟨hb, r, v, hw, ?_⟩
    cases r with
    | nk => exact .inl ⟨rfl, rfl⟩
    | nr => exact .inr (.inl ⟨rfl, rfl⟩)
    | din i => exact .inr (.inr (.inl ⟨i, rfl, rfl⟩))
    | key i => exact .inr (.inr (.inr ⟨i, rfl, rfl⟩))
    | _ => cases hst

/-! ### Events -/

/-- R20: a step that is no command written while idle, no completion and no reset leaves `STATUS`. -/
theorem step_status_of_no_event {s t : State} (h : step s = .next t)
    (hcmd : fetchCommand s = none ∨ s.status.busy = true) (hcompl : ¬ Completes s) (hreset : ¬ HostDoes .reset s) :
    t.status = s.status := by
  rcases step_cases h with ⟨ha, hc⟩ | ⟨-, hs⟩ | ⟨hr, -⟩ | ⟨hb, v, hw, -⟩ | ⟨-, r, v, -, -, rfl⟩
  · rcases coreTurn_result hc with ⟨-, rfl⟩ | ⟨hf, hp, -⟩ | ⟨-, -, -, hst⟩
    · rfl
    · exact absurd ⟨ha, hf, hp⟩ hcompl
    · exact hst
  · rw [hs]
  · exact absurd hr hreset
  · rw [(fetchCommand_iff s v).2 hw, hb] at hcmd
    simp at hcmd
  · simp

/-- R104: the step that completes a command is `STORE`. -/
theorem step_of_completes {s t : State} (hc : Completes s) (h : step s = .next t) : t = storeStep (popTurn s) := by
  obtain ⟨ha, hf, hp⟩ := hc
  rw [step_of_core ha] at h
  rcases coreTurn_result h with ⟨hn, -⟩ | ⟨-, -, e⟩ | ⟨-, hn, -⟩
  · exact nomatch hf.symm.trans hn
  · exact e
  · exact absurd hp hn

theorem Inv.err_none_of_inFlight {s : State} (hi : Inv s) (hf : inFlight s = true) : s.status.err = .none :=
  (hi.flags.1 (hi.busy.trans hf)).2

/-- Settles O52: one clause for each event, and `step_status_of_no_event` for every other step. -/
theorem flagsChangeOnlyAtEvents : Obligations.FlagsChangeOnlyAtEvents := by
  intro s t hi h
  refine ⟨fun v hv hb => ?_, fun hc => ?_, fun hr => ?_, step_status_of_no_event h⟩
  · rw [step_of_command ((fetchCommand_iff s v).1 hv) hb] at h
    exact command_status (s := afterFetch s) hb h
  · have ⟨_, hf, _⟩ := hc
    rw [step_of_completes hc h]
    exact ⟨rfl, hi.err_none_of_inFlight hf⟩
  · rw [← next_unique (step_of_reset hr) h]; rfl

end Sys2Proof.Machine
end

section
/-! PROOFS. The invariant: it holds at reset, every step of the host and of the core keeps it, and so every reachable
state meets it (spec/10_state.md R21, R24, R25). -/

namespace Sys2Proof.Machine

/-! ### Idle states -/

/-- An idle state meets the invariant as soon as its flags are legal and `SEQ` is at rest. -/
theorem inv_of_atRest {s : State} (hl : s.status.Legal) (hb : s.status.busy = false) (hq : s.seq = .atRest) :
    Inv s where
  flags := hl
  busy := by rw [hb, inFlight, hq]; rfl
  latched h := nomatch h.symm.trans hb
  pair h := nomatch h.symm.trans hb
  position := by rw [PositionLegal, hq]; rfl

theorem Inv.atRest_of_idle {s : State} (hi : Inv s) (hb : s.status.busy = false) : s.seq = .atRest := by
  have hop : s.seq.op = .none := by simpa [inFlight, hb] using hi.busy
  simpa [PositionLegal, hop] using hi.position

/-- The invariant speaks of what the core holds only. -/
theorem Inv.of_sameCore {s t : State} (hi : Inv s) (h : SameCore s t) : Inv t := by
  rw [h]; exact ⟨hi.flags, hi.busy, hi.latched, hi.pair, hi.position⟩

/-- Flags with neither `BUSY` nor `DONE` are legal, whatever the error code. -/
theorem Status.legal_rejected (e : ErrCode) : Status.Legal ⟨false, false, e⟩ := by simp [Status.Legal]

theorem inv_resetCore (s : State) : Inv (resetCore s) := inv_of_atRest (Status.legal_rejected _) rfl rfl

/-- Settles O48: at reset the core is idle with `SEQ` at rest. -/
theorem invariantAtReset : Obligations.InvariantAtReset := fun _ => inv_of_atRest (Status.legal_rejected _) rfl rfl

/-! ### Turns of the host -/

/-- R93: acceptance latches a legal pair and starts at `EXPAND` of round 0. -/
theorem inv_accepted {s : State} (hl : legalPair s.nk s.nr = true) {op : SeqOp} (hop : op ≠ .none) :
    Inv { s with status := ⟨true, false, .none⟩, cfg := ⟨s.nk, s.nr⟩, seq := ⟨op, .expand, 0⟩ } where
  flags := by simp [Status.Legal]
  busy := ((inFlight_iff _).2 hop).symm
  latched _ := rfl
  pair _ := (legalPair_iff_validOperands s).1 hl
  position := by
    cases op with
    | none => exact absurd rfl hop
    | enc => rfl
    | dec => rfl

theorem command_keeps_inv {v : Byte} {s t : State} (hi : Inv s) (h : command v s = .next t) : Inv t := by
  obtain ⟨u, hu, hc⟩ := command_cases v s
  obtain rfl := next_unique hu h
  rcases hc with ⟨-, rfl⟩ | ⟨hb, e, -, rfl⟩ | ⟨-, hl, op, hop, rfl⟩
  · exact hi
  · exact inv_of_atRest (Status.legal_rejected e) rfl (hi.atRest_of_idle hb)
  · exact inv_accepted hl hop

theorem storeReg_keeps_inv {s : State} (hi : Inv s) (hb : s.status.busy = false) (r : Reg) (v : Byte) :
    Inv (storeReg r v s) := by
  refine inv_of_atRest ?_ ?_ ?_
  · rw [storeReg_status]; exact hi.flags
  · rw [storeReg_status]; exact hb
  · rw [storeReg_seq]; exact hi.atRest_of_idle hb

/-! ### Turns of the core -/

/-- R94: the number of rounds of a legal pair. -/
theorem rounds_of_legalPair {s : State} (h : legalPair s.cfg.nkl s.cfg.nrl = true) :
    10 ≤ s.rounds ∧ s.rounds ≤ 14 := by
  rcases (legalPair_iff_sizes _ _).1 h with ⟨-, h⟩ | ⟨-, h⟩ | ⟨-, h⟩ <;> rw [State.rounds, h] <;> decide

/-- The completion returns to an idle state with legal flags. -/
theorem storeStep_keeps_inv {s : State} (hi : Inv s) (hf : inFlight s = true) : Inv (storeStep s) :=
  inv_of_atRest ⟨(nomatch ·), fun _ => ⟨rfl, hi.err_none_of_inFlight hf⟩⟩ rfl rfl

/-- R102: a step of a `CIPHER` command short of the completion leads to the next position of one. -/
theorem encStep_position {s : State} (hop : s.seq.op = .enc) (hn : s.rounds ≤ 14) (h1 : 1 ≤ s.rounds)
    (hp : EncPosition s.seq.phase s.round s.rounds) (hs : s.seq.phase ≠ .store) :
    (encStep s).seq.op = .enc ∧ EncPosition (encStep s).seq.phase (encStep s).round s.rounds := by
  unfold encStep
  cases hq : s.seq.phase with rw [hq] at hp
  | idle => exact hp.elim
  | expand => exact ⟨hop, rfl⟩
  | init => exact ⟨rfl, le_refl 1, h1⟩
  | sub => exact ⟨rfl, hp⟩
  | shift =>
    by_cases hr : s.round < s.rounds
    · have e : (encShiftStep s).seq = ⟨.enc, .mix, s.seq.rnd⟩ := by simp [encShiftStep, hr]
      rw [State.round, e]; exact ⟨rfl, hp.1, hr⟩
    · have e : (encShiftStep s).seq = ⟨.enc, .add, s.seq.rnd⟩ := by simp [encShiftStep, hr]
      rw [State.round, e]; exact ⟨rfl, hp⟩
  | mix => exact ⟨rfl, hp.1, hp.2.le⟩
  | add =>
    by_cases hr : s.round < s.rounds
    · have e : (encAddStep s).seq = ⟨.enc, .sub, s.seq.rnd + 1⟩ := by simp [encAddStep, hr]
      have hnext : (s.seq.rnd + 1).toNat = s.seq.rnd.toNat + 1 :=
        BitVec.toNat_add_of_lt (Nat.succ_lt_succ (hr.trans_le hn) |>.trans_le (by decide))
      rw [State.round, e, hnext]; exact ⟨rfl, Nat.le_add_left 1 _, hr⟩
    · have e : (encAddStep s).seq = ⟨.enc, .store, s.seq.rnd⟩ := by simp [encAddStep, hr]
      rw [State.round, e]; exact ⟨rfl, le_antisymm hp.2 (not_lt.1 hr)⟩
  | store => exact absurd hq hs

/-- R103: a step of an `INVCIPHER` command short of the completion leads to the next position of one. -/
theorem decStep_position {s : State} (hop : s.seq.op = .dec) (hn : s.rounds ≤ 14) (h1 : 1 ≤ s.rounds)
    (hp : DecPosition s.seq.phase s.round s.rounds) (hs : s.seq.phase ≠ .store) :
    (decStep s).seq.op = .dec ∧ DecPosition (decStep s).seq.phase (decStep s).round s.rounds := by
  unfold decStep
  cases hq : s.seq.phase with rw [hq] at hp
  | idle => exact hp.elim
  | expand => exact ⟨hop, rfl⟩
  | init =>
    have e : (BitVec.ofNat 4 (s.rounds - 1)).toNat = s.rounds - 1 := Nat.mod_eq_of_lt (by omega)
    refine ⟨rfl, ?_⟩
    change (BitVec.ofNat 4 (s.rounds - 1)).toNat < s.rounds
    omega
  | sub => exact ⟨rfl, hp⟩
  | shift => exact ⟨rfl, hp⟩
  | mix =>
    obtain ⟨hr, hlt⟩ := hp
    refine ⟨rfl, ?_⟩
    change (s.seq.rnd - 1).toNat < s.rounds
    rw [BitVec.toNat_sub_of_le hr]
    exact (Nat.sub_le _ _).trans_lt hlt
  | add =>
    by_cases hr : 1 ≤ s.round
    · have e : (decAddStep s).seq = ⟨.dec, .mix, s.seq.rnd⟩ := by simp [decAddStep, hr]
      rw [State.round, e]; exact ⟨rfl, hr, hp⟩
    · have e : (decAddStep s).seq = ⟨.dec, .store, 0⟩ := by simp [decAddStep, hr]
      rw [State.round, e]; exact ⟨rfl, rfl⟩
  | store => exact absurd hq hs

/-- A step that leaves the flags, the operands and the direction of a command keeps the invariant when it leads to a
legal position. -/
theorem Inv.of_frame {s t : State} (hi : Inv s) (hst : t.status = s.status) (hcfg : t.cfg = s.cfg) (hnk : t.nk = s.nk)
    (hnr : t.nr = s.nr) (hop : t.seq.op = s.seq.op) (hpos : PositionLegal t) : Inv t where
  flags := hst ▸ hi.flags
  busy := by rw [hst, hi.busy, inFlight, inFlight, hop]
  latched := by rw [hst, hcfg, hnk, hnr]; exact hi.latched
  pair := by rw [hst, ValidOperands, hnk, hnr]; exact hi.pair
  position := hpos

theorem coreTurn_keeps_inv {s t : State} (hi : Inv s) (h : coreTurn s = .next t) : Inv t := by
  rcases coreTurn_result h with ⟨-, rfl⟩ | ⟨hf, -, rfl⟩ | ⟨-, hs, -, hst⟩
  · exact hi
  · exact storeStep_keeps_inv hi hf
  obtain ⟨-, -, hnk, hnr, hcfg, -⟩ := coreTurn_keeps h
  have hp := hi.position
  rcases coreTurn_cases h with ⟨hop, rfl⟩ | ⟨hop, hl, -, rfl⟩ | ⟨hop, hl, -, rfl⟩
  · exact hi
  · obtain ⟨h10, h14⟩ := rounds_of_legalPair hl
    simp only [PositionLegal, hop] at hp
    obtain ⟨hop', hp'⟩ := encStep_position hop h14 (by omega) hp hs
    refine hi.of_frame hst hcfg hnk hnr (hop'.trans hop.symm) ?_
    simpa only [PositionLegal, hop', State.rounds, hcfg] using hp'
  · obtain ⟨h10, h14⟩ := rounds_of_legalPair hl
    simp only [PositionLegal, hop] at hp
    obtain ⟨hop', hp'⟩ := decStep_position hop h14 (by omega) hp hs
    refine hi.of_frame hst hcfg hnk hnr (hop'.trans hop.symm) ?_
    simpa only [PositionLegal, hop', State.rounds, hcfg] using hp'

/-! ### Every step, and every run from reset -/

/-- Settles O49, by the cases of a step. -/
theorem invariantKeptByEveryStep : Obligations.InvariantKeptByEveryStep := by
  intro s t hi h
  have hfetch : Inv (afterFetch s) := hi.of_sameCore rfl
  rcases step_cases h with ⟨-, hc⟩ | ⟨-, hs⟩ | ⟨-, rfl⟩ | ⟨-, v, -, hc⟩ | ⟨hb, r, v, -, -, rfl⟩
  · exact coreTurn_keeps_inv (hi.of_sameCore (sameCore_popTurn s)) hc
  · exact hi.of_sameCore hs
  · exact inv_resetCore _
  · exact command_keeps_inv hfetch hc
  · exact storeReg_keeps_inv hfetch hb r v

/-- What every step keeps, every run of steps keeps. -/
theorem steps_keep {P : State → Prop} (hstep : ∀ s t, P s → step s = .next t → P t) {n : Nat} {s t : State}
    (hs : P s) (h : steps n s = .next t) : P t := by
  induction n generalizing s with
  | zero => exact next_unique rfl h ▸ hs
  | succ n ih =>
    rw [steps] at h
    split at h
    · exact ih (hstep _ _ hs ‹_›) h
    · cases h
    · cases h

theorem inv_of_reachable {s : State} (h : Reachable s) : Inv s := by
  obtain ⟨env, n, hn⟩ := h
  exact steps_keep invariantKeptByEveryStep (invariantAtReset env) hn

/-- R111: the six bytes of legal flags. -/
theorem Status.toByte_of_legal {f : Status} (h : f.Legal) :
    f.toByte = 0x00 ∨ f.toByte = 0x01 ∨ f.toByte = 0x02 ∨ f.toByte = 0x04 ∨ f.toByte = 0x08 ∨ f.toByte = 0x0C := by
  obtain ⟨busy, done, err⟩ := f
  obtain ⟨hbusy, hdone⟩ := h
  cases busy with
  | true => obtain ⟨rfl, rfl⟩ := hbusy rfl; decide
  | false => cases done with
    | true => obtain ⟨-, rfl⟩ := hdone rfl; decide
    | false => cases err <;> decide

/-- R21: an error code excludes `BUSY` and `DONE`. -/
theorem Status.idle_of_err {f : Status} (h : f.Legal) (he : f.err ≠ .none) : f.busy = false ∧ f.done = false :=
  ⟨Bool.eq_false_iff.2 fun hb => he (h.1 hb).2, Bool.eq_false_iff.2 fun hd => he (h.2 hd).2⟩

/-- Settles O51, from the invariant of every reachable state. -/
theorem reachableStatusValues : Obligations.ReachableStatusValues := by
  intro s hs
  have hi := inv_of_reachable hs
  refine ⟨hi.flags.1, hi.flags.2, Status.idle_of_err hi.flags, ?_, Status.toByte_of_legal hi.flags⟩
  rw [hi.busy]
  exact inFlight_iff s

end Sys2Proof.Machine
end

section
/-! PROOFS. The register space by its offsets: the map of R30 in both directions, and what a host write does and a host
read returns at every offset (spec/20_memory.md R30, R38, R39). -/

namespace Sys2Proof.Machine

/-! ### The offset of a register -/

@[simp] theorem offset_din_val (i : Fin 16) : (Reg.offset (.din i)).val = 0x10 + i.val := rfl
@[simp] theorem offset_key_val (i : Fin 32) : (Reg.offset (.key i)).val = 0x20 + i.val := rfl
@[simp] theorem offset_dout_val (i : Fin 16) : (Reg.offset (.dout i)).val = 0x40 + i.val := rfl

/-- R30: the reserved offsets are exactly two ranges. -/
theorem regAt_eq_none_iff (o : Offset) :
    regAt o = none ↔ (0x04 ≤ o.val ∧ o.val ≤ 0x0F) ∨ (0x50 ≤ o.val ∧ o.val ≤ 0x7F) := by
  revert o; decide

/-- Settles O15: the offsets by the definition, the map by `regAt_eq_some_iff` and `regAt_eq_none_iff`. -/
theorem registerMapExact : Obligations.RegisterMapExact :=
  ⟨⟨rfl, rfl, rfl, rfl⟩, fun i => ⟨offset_din_val i, offset_dout_val i⟩, offset_key_val, regAt_offset,
    fun o r h => ((regAt_eq_some_iff o r).1 h).symm, regAt_eq_none_iff⟩

/-! ### A host write -/

/-- R93: a write of `CMD` made while idle is the command. -/
theorem memWrite_cmd_of_idle (f : Byte → State → Host.Outcome State Fault Refusal) (v : Byte) {s : State}
    (hb : s.status.busy = false) : memWrite f (Reg.offset .cmd) v s = f v s := by
  rw [memWrite, hb, regAt_offset]; rfl

/-- Settles O17: while busy the write is ignored; while idle, by the register at the offset. -/
theorem hostWriteEffect : Obligations.HostWriteEffect := by
  intro o v s
  by_cases hb : s.status.busy = true
  · rw [if_pos hb, memWrite_of_busy _ _ _ hb]
  have hidle : s.status.busy = false := Bool.eq_false_iff.2 hb
  rw [if_neg hb]
  rcases offset_cases o with ⟨r, rfl⟩ | hres
  · by_cases hr : r = .cmd
    · rw [hr, memWrite_cmd_of_idle _ _ hidle]; rfl
    rw [memWrite_offset r v s _ hidle hr]
    cases r with
    | cmd => exact absurd rfl hr
    | din i =>
      simp (disch := omega) only [offset_din_val, if_neg, dif_pos, Nat.add_sub_cancel_left, storeReg]
    | key i =>
      simp (disch := omega) only [offset_key_val, if_neg, dif_neg, dif_pos, Nat.add_sub_cancel_left, storeReg]
    | dout i =>
      have hrange : 0x40 ≤ (Reg.offset (.dout i)).val := Nat.le_add_right _ _
      simp (disch := omega) only [if_neg, dif_neg, storeReg]
    | _ => rfl
  · have hrange := (regAt_eq_none_iff o).1 hres
    rw [memWrite_reserved _ hres]
    simp (disch := omega) only [if_neg, dif_neg]

/-! ### The value of a host read -/

/-- R38: the value a read returns, offset by offset. -/
theorem readOffset_eq (o : Offset) (s : State) : readOffset o s =
    if o.val = 0x01 then s.status.toByte
    else if o.val = 0x02 then s.nk
    else if o.val = 0x03 then s.nr
    else if h : 0x10 ≤ o.val ∧ o.val ≤ 0x1F then s.din[o.val - 0x10]
    else if h : 0x20 ≤ o.val ∧ o.val ≤ 0x3F then s.key[o.val - 0x20]
    else if h : 0x40 ≤ o.val ∧ o.val ≤ 0x4F then s.dout[o.val - 0x40]
    else 0x00 := by
  rcases offset_cases o with ⟨r, rfl⟩ | hres
  · cases r with
    | din i =>
      simp (disch := omega) only [readOffset_din, offset_din_val, if_neg, dif_pos, Nat.add_sub_cancel_left,
        Fin.getElem_fin]
    | key i =>
      simp (disch := omega) only [readOffset_key, offset_key_val, if_neg, dif_neg, dif_pos, Nat.add_sub_cancel_left,
        Fin.getElem_fin]
    | dout i =>
      simp (disch := omega) only [readOffset_dout, offset_dout_val, if_neg, dif_neg, dif_pos,
        Nat.add_sub_cancel_left, Fin.getElem_fin]
    | _ => rfl
  · have hrange := (regAt_eq_none_iff o).1 hres
    rw [readOffset_reserved hres]
    simp (disch := omega) only [if_neg, dif_neg]

end Sys2Proof.Machine
end

section
/-! PROOFS. The turns of the two agents: a step is one turn, a turn of the host while a command is in flight is invisible
to the core, and so the interleaving of host and core does not matter (spec/20_memory.md R38, R41). -/

namespace Sys2Proof.Machine

/-! ### A step is one turn -/

theorem step_of_host_done {s : State} (ha : nextAgent s = .host) (hh : s.env.host = []) :
    step s = .next (popTurn s) := by
  have hpop : (popTurn s).env.host = [] := hh
  rw [step_of_host ha, hostTurn, hpop]

theorem step_of_read {o : Offset} {s : State} (h : HostDoes (.rd o) s) :
    step s = .next (hostRead o (afterFetch s)) := by
  obtain ⟨hs, rest, hl⟩ := host_eq_of_hostDoes h
  rw [hs, hostTurn, hl]; rfl

/-- Settles O5: one clause for each agent and for a host with nothing left to do. -/
theorem stepIsOneTurn : Obligations.StepIsOneTurn :=
  fun _ => ⟨step_of_core, fun _ _ => step_of_write, step_of_host_done⟩

/-! ### A host read -/

/-- R38: while a command is in flight `DOUT` holds its value: the two events that write it end idle. -/
theorem step_dout_of_busy {s t : State} (h : step s = .next t) (hb : t.status.busy = true) : t.dout = s.dout := by
  rcases (resultAndHiddenStateWrites s t h).1 with hd | ⟨hc, -⟩ | ⟨hr, -⟩
  · exact hd
  · rw [step_of_completes hc h] at hb; cases hb
  · rw [← next_unique (step_of_reset hr) h] at hb; cases hb

/-- Settles O18: the value by `readOffset_eq`, the turn of a read by `step_of_read`. -/
theorem hostReadValue : Obligations.HostReadValue :=
  ⟨readOffset_eq, fun o s h => ⟨hostRead o (afterFetch s), step_of_read h, rfl, rfl⟩, fun _ _ => step_dout_of_busy⟩

/-! ### Turns of the host while a command is in flight -/

/-- Settles O46, by the cases of a turn of the host: reset is excluded, and a write that stores needs an idle core. -/
theorem busyHostTurnIsInvisible : Obligations.BusyHostTurnIsInvisible := by
  intro s hb ha hreset
  obtain ⟨t, ht, hs | ⟨hr, -⟩ | ⟨hidle, -⟩⟩ := hostTurn_cases (popTurn s)
  · exact ⟨t, (step_of_host ha).trans ht, (sameCore_popTurn s).trans hs⟩
  · exact absurd ⟨ha, hr⟩ hreset
  · exact nomatch hb.symm.trans hidle

/-! ### The host's remaining actions -/

theorem memWrite_env {o : Offset} {v : Byte} {s t : State} (h : memWrite command o v s = .next t) :
    t.env = s.env := by
  rcases memWrite_cases command o v s with e | ⟨-, -, e⟩ | ⟨-, -, e⟩ | ⟨-, -, e⟩ | ⟨-, i, -, e⟩ | ⟨-, i, -, e⟩
  · rw [← next_unique e h]
  · rw [command_frame (e.symm.trans h)]
  all_goals rw [← next_unique e h]

/-- A turn of the host consumes at most its next action. -/
theorem hostTurn_host {s t : State} (h : hostTurn command s = .next t) :
    t.env.host = s.env.host ∨ t.env.host = s.env.host.tail := by
  unfold hostTurn at h
  split at h
  · cases h; exact .inl rfl
  · cases h; exact .inr rfl
  · rw [memWrite_env h]; exact .inr rfl
  · cases h
    rw [hostPoll_eq]
    split
    · exact .inl rfl
    · exact .inr rfl
  · cases h; exact .inr rfl

/-- A step adds nothing to what the host still does. -/
theorem step_host_subset {s t : State} (h : step s = .next t) : t.env.host ⊆ s.env.host := by
  rcases agent_cases s with ha | ha
  · obtain ⟨-, -, -, -, -, henv⟩ := coreTurn_keeps ((step_of_core ha).symm.trans h)
    rw [henv]; exact List.Subset.refl _
  · rcases hostTurn_host ((step_of_host ha).symm.trans h) with e | e <;> rw [e]
    · exact List.Subset.refl _
    · exact List.tail_subset _

/-! ### The interleaving -/

theorem SameCore.symm {s t : State} (h : SameCore s t) : SameCore t s := by
  rw [h]; rfl

/-- States that hold the same take the same turn of the core. -/
theorem coreTurn_sameCore {s s' t : State} (hs : SameCore s s') (h : coreTurn s = .next t) :
    ∃ t', coreTurn s' = .next t' ∧ SameCore t t' := by
  rw [hs]; exact ⟨_, coreTurn_withEnv s'.env h, rfl⟩

theorem coreTurns_sameCore {n : Nat} {s s' t : State} (hs : SameCore s s') (h : coreTurns n s = .next t) :
    ∃ t', coreTurns n s' = .next t' ∧ SameCore t t' := by
  induction n generalizing s s' with
  | zero => cases h; exact ⟨s', rfl, hs⟩
  | succ n ih =>
    rw [coreTurns] at h
    split at h
    · obtain ⟨u', hu', huu'⟩ := coreTurn_sameCore hs ‹_›
      rw [coreTurns_succ hu']
      exact ih huu' h
    · cases h
    · cases h

/-- R41: while busy and short of a reset, a step does to what the core holds one turn of the core or nothing. -/
theorem step_of_busy {s t : State} (hb : s.status.busy = true) (hreset : .reset ∉ s.env.host)
    (h : step s = .next t) :
    SameCore s t ∨ ∃ t', coreTurn s = .next t' ∧ SameCore t t' := by
  rcases agent_cases s with ha | ha
  · exact .inr (coreTurn_sameCore (sameCore_popTurn s).symm ((step_of_core ha).symm.trans h))
  · obtain ⟨u, hu, hs⟩ := busyHostTurnIsInvisible s hb ha fun hr => hreset (List.mem_of_mem_head? hr.2)
    exact .inl (next_unique hu h ▸ hs)

/-- Settles O47, by induction on the steps: each is one turn of the core or invisible to it. -/
theorem interleavingDoesNotMatter : Obligations.InterleavingDoesNotMatter := by
  intro n
  induction n with
  | zero => intro s u _ _ h; exact ⟨0, s, le_rfl, rfl, next_unique h rfl ▸ rfl⟩
  | succ n ih =>
    intro s u hreset hbusy h
    rw [steps] at h
    split at h
    · rename_i t ht
      have hb : s.status.busy = true := hbusy 0 s (Nat.succ_pos n) rfl
      obtain ⟨k, v, hk, hv, huv⟩ := ih t u (fun hr => hreset (step_host_subset ht hr))
        (fun m w hm hw => hbusy (m + 1) w (Nat.succ_lt_succ hm) ((steps_succ ht).trans hw)) h
      rcases step_of_busy hb hreset ht with hst | ⟨t', ht', htt'⟩
      · obtain ⟨v', hv', hvv'⟩ := coreTurns_sameCore hst.symm hv
        exact ⟨k, v', hk.trans n.le_succ, hv', huv.trans hvv'⟩
      · obtain ⟨v', hv', hvv'⟩ := coreTurns_sameCore htt' hv
        exact ⟨k + 1, v', Nat.succ_le_succ hk, (coreTurns_succ ht').trans hv', huv.trans hvv'⟩
    · cases h
    · cases h

end Sys2Proof.Machine
end

section
/-! PROOFS. The byte of the state and the byte of the key schedule that round-key addition pairs
(spec/20_memory.md R34). -/

namespace Sys2Proof.Machine

/-- Settles O37: byte `4c + r` of a round key is byte `r` of word `4 round + c`. -/
theorem roundKeyAlignment : Obligations.RoundKeyAlignment := by
  intro s w round r c
  have hcol : (4 * c.val + r.val) / 4 = c.val := by omega
  have hrow : (4 * c.val + r.val) % 4 = r.val := by omega
  simp only [addRoundKey_getElem, roundKey_getElem, hcol, hrow]

end Sys2Proof.Machine
end

section
/-! PROOFS. The decoder and the encoder, and the step that runs a decoded command (spec/30_encoding.md R45, R46, R50,
R51). -/

namespace Sys2Proof.Machine

/-! ### Decoding and encoding -/

/-- R46: a byte decodes to a command exactly when it is the command's opcode. -/
theorem decodeOpcode_eq_command_iff (v : Byte) (i : Instr) : decodeOpcode v = .command i ↔ v = opcode i := by
  constructor
  · intro h
    rcases decodeOpcode_cases v with ⟨rfl, hd⟩ | ⟨rfl, hd⟩ | ⟨-, -, hd⟩
    · cases hd.symm.trans h; rfl
    · cases hd.symm.trans h; rfl
    · exact nomatch hd.symm.trans h
  · rintro rfl
    cases i <;> rfl

/-- R45, R51: the first byte decides the command, and the bytes after it are the remainder. -/
theorem decode_cons_eq_command_iff (v : Byte) (bs rest : List Byte) (i : Instr) :
    decode (v :: bs) = .command (i, rest) ↔ decodeOpcode v = .command i ∧ bs = rest := by
  rw [decode]
  cases decodeOpcode v <;> simp

/-- Settles O2: no byte decodes to no command, and a first byte decodes to a command exactly when it is its opcode. -/
theorem decodeEncodeAgree : Obligations.DecodeEncodeAgree := by
  intro bs rest i
  cases bs with
  | nil => exact ⟨nofun, nofun⟩
  | cons v bs =>
    rw [decode_cons_eq_command_iff, decodeOpcode_eq_command_iff, encode, List.singleton_append, List.cons.injEq]

/-- Settles O1: the mask 0xFF keeps every bit of the byte. -/
theorem byteSelectsTableRow : Obligations.ByteSelectsTableRow := by
  intro v i
  have hmask : v &&& 0xFF = v := BitVec.and_allOnes
  rw [decodeOpcode_eq_command_iff, hmask]
  cases i <;> simp [opcode]

/-! ### The command that a byte selects -/

/-- Settles O3: the decoder's third case, and the rejection of `rejectOpcode_eq`. -/
theorem illegalOpcodeRejected : Obligations.IllegalOpcodeRejected := by
  intro v h1 h2
  obtain ⟨h, -⟩ | ⟨h, -⟩ | ⟨-, -, hd⟩ := decodeOpcode_cases v
  · exact absurd h h1
  · exact absurd h h2
  refine ⟨hd, fun s hb => ?_⟩
  rw [command_eq, if_neg h1, if_neg h2, rejectOpcode_eq, if_neg (Bool.eq_false_iff.1 hb)]

/-- R93: a write of `CMD` whose byte decodes to a command runs it; while busy both do nothing (R117). -/
theorem memWrite_cmd_of_decode {v : Byte} {i : Instr} (hd : decodeOpcode v = .command i) (s : State) :
    memWrite command (Reg.offset .cmd) v s = exec i s := by
  by_cases hb : s.status.busy = true
  · rw [memWrite_of_busy _ _ _ hb, exec_eq, startCommand_eq, if_pos hb]
  · rw [memWrite_cmd_of_idle _ _ (Bool.eq_false_iff.2 hb), command, hd]

/-- Settles O4: the fetched byte is the host's write of `CMD`. -/
theorem stepRunsDecodedCommand : Obligations.StepRunsDecodedCommand := by
  intro s v i hf hd
  exact ⟨(step_of_write ((fetchCommand_iff s v).1 hf)).trans (memWrite_cmd_of_decode hd _), rfl⟩

theorem decodeOpcode_of_decodeTableWord {nbits w : Nat} {i : Instr} (h : decodeTableWord nbits w = some i) :
    decodeOpcode (tableWordByte nbits w) = .command i := by
  unfold decodeTableWord at h
  split at h
  · rename_i j rest hd
    rw [← Option.some.inj h]
    exact ((decode_cons_eq_command_iff _ _ _ _).1 hd).1
  · cases h

/-- Consuming a placed word gives back the state it was placed in. -/
theorem afterFetch_withFetchWord (s : State) (nbits w : Nat) : afterFetch (s.withFetchWord nbits w) = s := rfl

theorem fetchCommand_withFetchWord (s : State) (nbits w : Nat) :
    fetchCommand (s.withFetchWord nbits w) = some (tableWordByte nbits w) := rfl

/-- Settles O6: the next step fetches the placed word, and consuming it gives back the state. -/
theorem placedWordRunsNext : Obligations.PlacedWordRunsNext := by
  intro s nbits w i h
  obtain ⟨hstep, -⟩ := stepRunsDecodedCommand _ _ i (fetchCommand_withFetchWord s nbits w)
    (decodeOpcode_of_decodeTableWord h)
  rw [hstep, afterFetch_withFetchWord]

end Sys2Proof.Machine
end

section
/-! PROOFS. The loads `LDBLK`, `LDKEY` and `SETSIZE`: consecutive writes to an idle core with nothing scheduled, one step
each (spec/30_encoding.md R54, spec/20_memory.md R39). -/

namespace Sys2Proof.Machine

/-- An idle core with nothing scheduled: every step is the host's, and every write is performed. -/
structure Waiting (s : State) : Prop where
  idle : s.status.busy = false
  notInFlight : inFlight s = false
  unscheduled : s.env.sched = []

/-- The state in which the host still does `l`. -/
def State.withHost (s : State) (l : List HostAction) : State := { s with env := { s.env with host := l } }

theorem Waiting.withHost {s : State} (hs : Waiting s) (l : List HostAction) : Waiting (s.withHost l) :=
  ⟨hs.idle, hs.notInFlight, hs.unscheduled⟩

theorem Waiting.after_storeReg {s : State} (hs : Waiting s) (r : Reg) (v : Byte) : Waiting (storeReg r v s) where
  idle := by rw [storeReg_status]; exact hs.idle
  notInFlight := by rw [inFlight, storeReg_seq]; exact hs.notInFlight
  unscheduled := by rw [storeReg_env]; exact hs.unscheduled

theorem Waiting.agent_host {s : State} (hs : Waiting s) : nextAgent s = .host := by
  rw [nextAgent, hs.unscheduled]
  exact if_neg (Bool.eq_false_iff.1 hs.notInFlight)

/-- One write to a waiting core is one step, which stores the byte. -/
theorem Waiting.step_write {s : State} (hs : Waiting s) {r : Reg} (hr : r ≠ .cmd) (v : Byte) (l : List HostAction) :
    step (s.withHost (.wr r.offset v :: l)) = .next (storeReg r v (s.withHost l)) := by
  have hpop : afterFetch (s.withHost (.wr r.offset v :: l)) = s.withHost l := by
    simp [afterFetch, popAction, popTurn, State.withHost, hs.unscheduled]
  rw [step_of_write ⟨(hs.withHost _).agent_host, rfl⟩, hpop]
  exact memWrite_offset r v _ command hs.idle hr

/-! ### Loading a byte-array register -/

/-- Overwriting the next element extends the loaded part by one byte. -/
theorem toList_set_load {n f : Nat} (d : Vector Byte n) (hf : f < n) (v : Byte) (h : List Byte) :
    (d.set f v).toList.take (f + 1) ++ h ++ (d.set f v).toList.drop (f + 1 + h.length) =
      d.toList.take f ++ v :: h ++ d.toList.drop (f + (v :: h).length) := by
  have hlen : f < d.toList.length := by simpa using hf
  have hdrop : f + (v :: h).length = f + 1 + h.length := by simp; omega
  rw [Vector.toList_set, List.drop_set_of_lt (by omega), List.take_add_one, List.take_set_of_le le_rfl, hdrop]
  simp [List.getElem?_set_self hlen]

/-- The writes of consecutive elements from `f` on load these elements, one step each. `put` stores the register that
`offset` numbers the elements of; `hstep` says that one write stores one element. -/
theorem steps_writesFrom {n : Nat} {offset : Nat → Offset} {put : State → Vector Byte n → State} {s : State}
    (hstep : ∀ (d : Vector Byte n) (i : Nat) (hi : i < n) (v : Byte) (l : List HostAction),
      step (put (s.withHost (.wr (offset i) v :: l)) d) = .next (put (s.withHost l) (d.set i v)))
    (rest : List HostAction) (h : List Byte) (f : Nat) (d : Vector Byte n) (hf : f + h.length ≤ n) :
    ∃ e : Vector Byte n, e.toList = d.toList.take f ++ h ++ d.toList.drop (f + h.length) ∧
      steps h.length (put (s.withHost (writesFrom offset f h ++ rest)) d) = .next (put (s.withHost rest) e) := by
  induction h generalizing f d with
  | nil => exact ⟨d, by simp, rfl⟩
  | cons v h ih =>
    rw [List.length_cons] at hf
    obtain ⟨e, he, hsteps⟩ := ih (f + 1) (d.set f v) (by omega)
    exact ⟨e, he.trans (toList_set_load d (by omega) v h), (steps_succ (hstep d f (by omega) v _)).trans hsteps⟩

/-- `DIN` as the register a load stores. -/
def putDin (s : State) (d : Block) : State := { s with din := d }

/-- `KEY` as the register a load stores. -/
def putKey (s : State) (k : KeyReg) : State := { s with key := k }

theorem dinOffset_eq {i : Nat} (hi : i < 16) : dinOffset i = Reg.offset (.din ⟨i, hi⟩) :=
  Fin.ext (Nat.mod_eq_of_lt (by omega))

theorem keyOffset_eq {i : Nat} (hi : i < 32) : keyOffset i = Reg.offset (.key ⟨i, hi⟩) :=
  Fin.ext (Nat.mod_eq_of_lt (by omega))

theorem Waiting.step_putDin {s : State} (hs : Waiting s) (d : Block) (i : Nat) (hi : i < 16) (v : Byte)
    (l : List HostAction) :
    step (putDin (s.withHost (.wr (dinOffset i) v :: l)) d) = .next (putDin (s.withHost l) (d.set i v)) := by
  have hd : Waiting (putDin s d) := ⟨hs.idle, hs.notInFlight, hs.unscheduled⟩
  rw [dinOffset_eq hi]
  exact hd.step_write (r := .din ⟨i, hi⟩) nofun v l

theorem Waiting.step_putKey {s : State} (hs : Waiting s) (k : KeyReg) (i : Nat) (hi : i < 32) (v : Byte)
    (l : List HostAction) :
    step (putKey (s.withHost (.wr (keyOffset i) v :: l)) k) = .next (putKey (s.withHost l) (k.set i v)) := by
  have hk : Waiting (putKey s k) := ⟨hs.idle, hs.notInFlight, hs.unscheduled⟩
  rw [keyOffset_eq hi]
  exact hk.step_write (r := .key ⟨i, hi⟩) nofun v l

theorem Waiting.steps_ldblk {s : State} (hs : Waiting s) {h : List Byte} (hwf : (HostOp.ldblk h).wf = true)
    (rest : List HostAction) :
    ∃ d : Block, d.toList = h ∧ steps 16 (s.withHost ((HostOp.ldblk h).expand ++ rest)) =
      .next (putDin (s.withHost rest) d) := by
  have hlen : h.length = 16 := by simpa [HostOp.wf] using hwf
  obtain ⟨d, hd, hsteps⟩ := steps_writesFrom hs.step_putDin rest h 0 s.din (by omega)
  have hdrop : s.din.toList.drop 16 = [] := List.drop_eq_nil_of_le (by simp)
  exact ⟨d, by simpa [hlen, hdrop] using hd, hlen ▸ hsteps⟩

theorem Waiting.steps_ldkey {s : State} (hs : Waiting s) {h : List Byte} (hwf : (HostOp.ldkey h).wf = true)
    (rest : List HostAction) :
    ∃ k : KeyReg, k.toList = h ++ s.key.toList.drop h.length ∧
      steps h.length (s.withHost ((HostOp.ldkey h).expand ++ rest)) = .next (putKey (s.withHost rest) k) := by
  have hlen : (h.length = 16 ∨ h.length = 24) ∨ h.length = 32 := by simpa [HostOp.wf] using hwf
  obtain ⟨k, hk, hsteps⟩ := steps_writesFrom hs.step_putKey rest h 0 s.key (by omega)
  exact ⟨k, by simpa using hk, hsteps⟩

theorem Waiting.steps_setsize {s : State} (hs : Waiting s) (nk nr : Byte) (rest : List HostAction) :
    steps 2 (s.withHost ((HostOp.setsize nk nr).expand ++ rest)) =
      .next { s.withHost rest with nk := nk, nr := nr } := by
  have h1 := hs.step_write (r := .nk) nofun nk (.wr (Reg.offset .nr) nr :: rest)
  have h2 := (hs.after_storeReg .nk nk).step_write (r := .nr) nofun nr rest
  exact (steps_succ h1).trans (steps_succ h2)

/-- Settles O59: the writes of each line, one step each. -/
theorem loadsFillTheirRegisters : Obligations.LoadsFillTheirRegisters := by
  intro s op rest hwf hb hf hsched hhost
  have hs : Waiting s := ⟨hb, hf, hsched⟩
  have hself : s.withHost (op.expand ++ rest) = s := by rw [← hhost]; rfl
  refine ⟨?_, ?_, ?_⟩
  · rintro h rfl; exact hself ▸ hs.steps_ldblk hwf rest
  · rintro h rfl; exact hself ▸ hs.steps_ldkey hwf rest
  · rintro nk nr rfl; exact hself ▸ hs.steps_setsize nk nr rest

end Sys2Proof.Machine
end

section
/-! PROOFS. How many turns a command in flight has left, and that each turn of the core takes one of them
(spec/44_cipher_orchestration.md R100 to R106). -/

namespace Sys2Proof.Machine

/-! ### The turns left -/

/-- R102: the turns that a `CIPHER` command in round `r` of `n` has left. -/
def encTurnsLeft (p : Phase) (r n : Nat) : Nat :=
  match p with
  | .idle => 0
  | .expand => 4 * n + 2
  | .init => 4 * n + 1
  | .sub => 4 * (n - r) + 4
  | .shift => 4 * (n - r) + 3
  | .mix => 4 * (n - r) + 2
  | .add => if r < n then 4 * (n - r) + 1 else 2
  | .store => 1

/-- R103: the turns that an `INVCIPHER` command with `n` rounds has left in round `r`. -/
def decTurnsLeft (p : Phase) (r n : Nat) : Nat :=
  match p with
  | .idle => 0
  | .expand => 4 * n + 2
  | .init => 4 * n + 1
  | .shift => 4 * r + 4
  | .sub => 4 * r + 3
  | .add => 4 * r + 2
  | .mix => 4 * r + 1
  | .store => 1

/-- The turns of the core until the command in flight completes; 0 when there is none. -/
def turnsLeft (s : State) : Nat :=
  match s.seq.op with
  | .none => 0
  | .enc => encTurnsLeft s.seq.phase s.round s.rounds
  | .dec => decTurnsLeft s.seq.phase s.round s.rounds

theorem turnsLeft_enc {s : State} (h : s.seq.op = .enc) :
    turnsLeft s = encTurnsLeft s.seq.phase s.round s.rounds := by
  rw [turnsLeft, h]

theorem turnsLeft_dec {s : State} (h : s.seq.op = .dec) :
    turnsLeft s = decTurnsLeft s.seq.phase s.round s.rounds := by
  rw [turnsLeft, h]

theorem encTurnsLeft_le {p : Phase} {r n : Nat} (h : EncPosition p r n) : encTurnsLeft p r n ≤ 4 * n + 2 := by
  cases p with
  | idle => exact h.elim
  | expand => exact le_rfl
  | add => rw [encTurnsLeft]; split <;> omega
  | _ => simp only [EncPosition, encTurnsLeft] at h ⊢; omega

theorem decTurnsLeft_le {p : Phase} {r n : Nat} (h : DecPosition p r n) : decTurnsLeft p r n ≤ 4 * n + 2 := by
  cases p with
  | idle => exact h.elim
  | expand => exact le_rfl
  | _ => simp only [DecPosition, decTurnsLeft] at h ⊢; omega

/-- R102: a step of a `CIPHER` command short of the completion takes one of its turns. -/
theorem encStep_turnsLeft {s : State} (hn : s.rounds ≤ 14) (h1 : 1 ≤ s.rounds)
    (hp : EncPosition s.seq.phase s.round s.rounds) (hs : s.seq.phase ≠ .store) :
    encTurnsLeft (encStep s).seq.phase (encStep s).round s.rounds + 1 =
      encTurnsLeft s.seq.phase s.round s.rounds := by
  unfold encStep
  cases hq : s.seq.phase with rw [hq] at hp
  | idle => exact hp.elim
  | expand => rfl
  | init =>
    change 4 * (s.rounds - 1) + 4 + 1 = 4 * s.rounds + 1
    omega
  | sub => rfl
  | shift =>
    by_cases hr : s.seq.rnd.toNat < s.rounds
    · simp [encShiftStep, encTurnsLeft, State.round, hr]
    · have hlast : s.rounds - s.seq.rnd.toNat = 0 := by omega
      simp [encShiftStep, encTurnsLeft, State.round, hr, hlast]
  | mix =>
    have hr : s.seq.rnd.toNat < s.rounds := hp.2
    simp [encMixStep, encTurnsLeft, State.round, hr]
  | add =>
    by_cases hr : s.seq.rnd.toNat < s.rounds
    · have hnext : (s.seq.rnd + 1).toNat = s.seq.rnd.toNat + 1 :=
        BitVec.toNat_add_of_lt (Nat.succ_lt_succ (hr.trans_le hn) |>.trans_le (by decide))
      simp only [encAddStep, encTurnsLeft, State.round, hr, if_true, advance_seq, hnext]
      omega
    · simp [encAddStep, encTurnsLeft, State.round, hr]
  | store => exact absurd hq hs

/-- R103: a step of an `INVCIPHER` command short of the completion takes one of its turns. -/
theorem decStep_turnsLeft {s : State} (hn : s.rounds ≤ 14) (h1 : 1 ≤ s.rounds)
    (hp : DecPosition s.seq.phase s.round s.rounds) (hs : s.seq.phase ≠ .store) :
    decTurnsLeft (decStep s).seq.phase (decStep s).round s.rounds + 1 =
      decTurnsLeft s.seq.phase s.round s.rounds := by
  unfold decStep
  cases hq : s.seq.phase with rw [hq] at hp
  | idle => exact hp.elim
  | expand => rfl
  | init =>
    have e : (BitVec.ofNat 4 (s.rounds - 1)).toNat = s.rounds - 1 := Nat.mod_eq_of_lt (by omega)
    simp only [decInitStep, decTurnsLeft, advance_seq, State.round, e]
    omega
  | sub => rfl
  | shift => rfl
  | mix =>
    obtain ⟨hr, -⟩ : 1 ≤ s.seq.rnd.toNat ∧ s.seq.rnd.toNat < s.rounds := hp
    have hnext : (s.seq.rnd - 1).toNat = s.seq.rnd.toNat - 1 := BitVec.toNat_sub_of_le hr
    simp only [decMixStep, decTurnsLeft, State.round, advance_seq, hnext]
    omega
  | add =>
    by_cases hr : 1 ≤ s.seq.rnd.toNat
    · simp [decAddStep, decTurnsLeft, State.round, hr]
    · have hlast : s.seq.rnd.toNat = 0 := by omega
      simp [decAddStep, decTurnsLeft, State.round, hlast]
  | store => exact absurd hq hs

/-! ### A command in flight under the invariant -/

theorem Inv.legalPair_of_inFlight {s : State} (hi : Inv s) (hf : inFlight s = true) :
    legalPair s.cfg.nkl s.cfg.nrl = true := by
  have hb : s.status.busy = true := hi.busy.trans hf
  rw [hi.latched hb]
  exact (legalPair_iff_validOperands s).2 (hi.pair hb)

theorem Inv.nrNat_of_inFlight {s : State} (hi : Inv s) (hf : inFlight s = true) : s.nrNat = s.rounds := by
  rw [State.rounds, hi.latched (hi.busy.trans hf)]

theorem encEnabled_of_position {p : Phase} {r n : Nat} (h : EncPosition p r n) : encEnabled p r n = true := by
  cases p with
  | idle => exact h.elim
  | expand => exact beq_iff_eq.2 h
  | init => exact beq_iff_eq.2 h
  | mix => simpa [encEnabled] using And.intro h.1 h.2.le
  | store => rfl
  | _ => simpa [EncPosition, encEnabled] using h

theorem decEnabled_of_position {p : Phase} {r n : Nat} (h : DecPosition p r n) : decEnabled p r n = true := by
  cases p with
  | idle => exact h.elim
  | expand => exact beq_iff_eq.2 h
  | init => exact beq_iff_eq.2 h
  | store => rfl
  | _ => simpa [DecPosition, decEnabled] using h

/-- R116: under the invariant the core's turn answers a next state. -/
theorem Inv.coreTurn_answers {s : State} (hi : Inv s) : ∃ t, coreTurn s = .next t := by
  have hp := hi.position
  rw [PositionLegal] at hp
  cases hop : s.seq.op with rw [hop] at hp
  | none => exact ⟨s, by rw [coreTurn, hop]⟩
  | enc =>
    have hl := hi.legalPair_of_inFlight ((inFlight_iff s).2 (hop ▸ nofun))
    exact ⟨_, coreTurn_enc hop hl (encEnabled_of_position hp)⟩
  | dec =>
    have hl := hi.legalPair_of_inFlight ((inFlight_iff s).2 (hop ▸ nofun))
    exact ⟨_, coreTurn_dec hop hl (decEnabled_of_position hp)⟩

/-- R106: a command takes at most `4 Nr + 2` turns of the core. -/
theorem Inv.turnsLeft_le {s : State} (hi : Inv s) : turnsLeft s ≤ 4 * s.rounds + 2 := by
  have hp := hi.position
  rw [PositionLegal] at hp
  rw [turnsLeft]
  cases hop : s.seq.op with rw [hop] at hp
  | none => exact Nat.zero_le _
  | enc => exact encTurnsLeft_le hp
  | dec => exact decTurnsLeft_le hp

/-- R106: a turn of the core on a command in flight takes one of the turns left. -/
theorem Inv.coreTurn_turnsLeft {s t : State} (hi : Inv s) (hf : inFlight s = true) (h : coreTurn s = .next t) :
    turnsLeft t + 1 = turnsLeft s := by
  obtain ⟨h10, h14⟩ := rounds_of_legalPair (hi.legalPair_of_inFlight hf)
  have h1 : 1 ≤ s.rounds := by omega
  obtain ⟨-, -, -, -, hcfg, -⟩ := coreTurn_keeps h
  have hp := hi.position
  rw [PositionLegal] at hp
  rcases coreTurn_result h with ⟨hn, -⟩ | ⟨-, hs, rfl⟩ | ⟨-, hs, -⟩
  · exact nomatch hf.symm.trans hn
  · rw [turnsLeft, turnsLeft, hs]
    cases hop : s.seq.op with
    | none => exact absurd hop ((inFlight_iff s).1 hf)
    | enc => rfl
    | dec => rfl
  rcases coreTurn_cases h with ⟨hop, -⟩ | ⟨hop, -, -, rfl⟩ | ⟨hop, -, -, rfl⟩
  · exact absurd hop ((inFlight_iff s).1 hf)
  · simp only [hop] at hp
    have hop' := (encStep_position hop h14 h1 hp hs).1
    rw [turnsLeft_enc hop', turnsLeft_enc hop, State.rounds, hcfg]
    exact encStep_turnsLeft h14 h1 hp hs
  · simp only [hop] at hp
    have hop' := (decStep_position hop h14 h1 hp hs).1
    rw [turnsLeft_dec hop', turnsLeft_dec hop, State.rounds, hcfg]
    exact decStep_turnsLeft h14 h1 hp hs

end Sys2Proof.Machine
end

section
/-! PROOFS. `POLL`: what one turn of it does, and that it ends under every finite schedule (spec/30_encoding.md R54,
spec/70_reset_and_hazards.md R131). -/

namespace Sys2Proof.Machine

/-! ### One turn of `POLL` -/

theorem step_of_poll {s : State} (h : HostDoes .poll s) : step s = .next (hostPoll (popTurn s)) := by
  obtain ⟨hs, rest, hl⟩ := host_eq_of_hostDoes h
  rw [hs, hostTurn, hl]

/-- Settles O60: the read of `hostPoll_eq`, and the action consumed when the core is idle. -/
theorem pollTurnEffect : Obligations.PollTurnEffect := by
  intro s h
  refine ⟨_, step_of_poll h, (sameCore_popTurn s).trans (hostPoll_core _), ?_⟩
  rw [hostPoll_eq, popTurn_status]
  split <;> exact ⟨rfl, rfl⟩

/-! ### The steps until `POLL` ends -/

/-- Within `b` steps `POLL` is consumed at a completed command, and the host has read 0x01 some times and then 0x02. -/
def PollEndsWithin (b : Nat) (s : State) : Prop :=
  ∃ k n t, k ≤ b ∧ steps k s = .next t ∧ t.env.host = [] ∧ t.status = ⟨false, true, .none⟩ ∧
    t.env.responses =
      s.env.responses ++ List.replicate n (Reg.offset .status, 0x01) ++ [(Reg.offset .status, 0x02)]

theorem PollEndsWithin.of_step {b m : Nat} {s t : State} (h : step s = .next t)
    (hr : t.env.responses = s.env.responses ++ List.replicate m (Reg.offset .status, 0x01))
    (ht : PollEndsWithin b t) : PollEndsWithin (b + 1) s := by
  obtain ⟨k, n, u, hk, hu, hhost, hstatus, hresp⟩ := ht
  refine ⟨k + 1, m + n, u, Nat.succ_le_succ hk, (steps_succ h).trans hu, hhost, hstatus, ?_⟩
  rw [hresp, hr, List.replicate_add]
  simp only [List.append_assoc]

/-- The host has only `POLL` left, on a command that is in flight or has completed. -/
structure Polling (s : State) : Prop where
  inv : Inv s
  host : s.env.host = [.poll]
  flags : s.status = ⟨true, false, .none⟩ ∨ s.status = ⟨false, true, .none⟩

theorem Polling.of_sameCore {s t : State} (hp : Polling s) (h : SameCore s t) (hh : t.env.host = [.poll]) :
    Polling t :=
  ⟨hp.inv.of_sameCore h, hh, by rw [h]; exact hp.flags⟩

theorem Polling.after_coreTurn {s t : State} (hp : Polling s) (h : coreTurn s = .next t) : Polling t where
  inv := coreTurn_keeps_inv hp.inv h
  host := by
    obtain ⟨-, -, -, -, -, henv⟩ := coreTurn_keeps h
    rw [henv, hp.host]
  flags := by
    rcases coreTurn_result h with ⟨-, rfl⟩ | ⟨hf, -, rfl⟩ | ⟨-, -, -, hst⟩
    · exact hp.flags
    · right
      rw [storeStep_status, Status.complete, hp.inv.err_none_of_inFlight hf]
    · rw [hst]; exact hp.flags

/-- The turns of the core and the scheduled turns that are left. -/
def stepsLeft (s : State) : Nat := turnsLeft s + s.env.sched.length

/-- Where the agent is not the one that moves past the schedule's end, its turn is scheduled. -/
theorem sched_tail_lt {s : State} {a : Agent} (ha : nextAgent s = a)
    (hne : a ≠ if inFlight s = true then .core else .host) : s.env.sched.tail.length < s.env.sched.length := by
  unfold nextAgent at ha
  cases hs : s.env.sched with rw [hs] at ha
  | nil => exact absurd ha.symm hne
  | cons a' rest => exact Nat.lt_succ_self _

/-- A turn of the core leaves fewer steps. -/
theorem Polling.step_core {s : State} (hp : Polling s) (ha : nextAgent s = .core) :
    ∃ t, step s = .next t ∧ Polling t ∧ t.env.responses = s.env.responses ∧ stepsLeft t < stepsLeft s := by
  have hpop : Polling (popTurn s) := hp.of_sameCore (sameCore_popTurn s) hp.host
  obtain ⟨t, ht⟩ := hpop.inv.coreTurn_answers
  obtain ⟨-, -, -, -, -, henv⟩ := coreTurn_keeps ht
  refine ⟨t, (step_of_core ha).trans ht, hpop.after_coreTurn ht, by rw [henv]; rfl, ?_⟩
  have hsched : t.env.sched = s.env.sched.tail := by rw [henv]; rfl
  rw [stepsLeft, stepsLeft, hsched]
  by_cases hf : inFlight s = true
  · have hturn : turnsLeft t + 1 = turnsLeft s := hpop.inv.coreTurn_turnsLeft hf ht
    have htail : s.env.sched.tail.length ≤ s.env.sched.length := by simp
    omega
  · have hlt := sched_tail_lt ha (by rw [if_neg hf]; nofun)
    have hsame : t = popTurn s := by
      rcases coreTurn_result ht with ⟨-, e⟩ | ⟨hf', -⟩ | ⟨hf', -⟩
      · exact e
      · exact absurd hf' hf
      · exact absurd hf' hf
    have hturn : turnsLeft t = turnsLeft s := by rw [hsame]; rfl
    omega

/-- A turn of the host reads 0x01 while the command is in flight, and leaves fewer steps. -/
theorem Polling.step_host_busy {s : State} (hp : Polling s) (ha : nextAgent s = .host)
    (hst : s.status = ⟨true, false, .none⟩) :
    ∃ t, step s = .next t ∧ Polling t ∧
      t.env.responses = s.env.responses ++ [(Reg.offset .status, 0x01)] ∧ stepsLeft t < stepsLeft s := by
  have hdo : HostDoes .poll s := ⟨ha, by rw [hp.host]; rfl⟩
  have hf : inFlight s = true := by rw [← hp.inv.busy, hst]
  obtain ⟨t, ht, hsame, hresp, hhost⟩ := pollTurnEffect s hdo
  rw [hst] at hresp hhost
  refine ⟨t, ht, hp.of_sameCore hsame (hhost.trans hp.host), hresp, ?_⟩
  have hsched : t.env.sched = s.env.sched.tail := by
    rw [next_unique ht (step_of_poll hdo), hostPoll_eq, popTurn_status, hst]; rfl
  have hturn : turnsLeft t = turnsLeft s := by rw [hsame]; rfl
  have hlt := sched_tail_lt ha (by rw [if_pos hf]; nofun)
  rw [stepsLeft, stepsLeft, hsched, hturn]
  omega

/-- A turn of the host reads 0x02 once the command has completed, and ends `POLL`. -/
theorem Polling.ends_of_done {s : State} (hp : Polling s) (ha : nextAgent s = .host)
    (hst : s.status = ⟨false, true, .none⟩) (b : Nat) : PollEndsWithin (b + 1) s := by
  obtain ⟨t, ht, hsame, hresp, hhost⟩ := pollTurnEffect s ⟨ha, by rw [hp.host]; rfl⟩
  rw [hst] at hresp hhost
  rw [hp.host] at hhost
  have hstatus : t.status = s.status := by rw [hsame]
  refine ⟨1, 0, t, Nat.le_add_left 1 b, steps_succ ht, hhost, hstatus.trans hst, ?_⟩
  rw [hresp, List.replicate_zero, List.append_nil]
  rfl

/-- Every step leaves fewer steps or ends `POLL`. -/
theorem Polling.ends {b : Nat} {s : State} (hp : Polling s) (hb : stepsLeft s < b) : PollEndsWithin b s := by
  induction b generalizing s with
  | zero => exact absurd hb (Nat.not_lt_zero _)
  | succ b ih =>
    rcases agent_cases s with ha | ha
    · obtain ⟨t, ht, hpt, hresp, hlt⟩ := hp.step_core ha
      exact .of_step (m := 0) ht (by rw [hresp]; simp) (ih hpt (by omega))
    rcases hp.flags with hst | hst
    · obtain ⟨t, ht, hpt, hresp, hlt⟩ := hp.step_host_busy ha hst
      exact .of_step (m := 1) ht hresp (ih hpt (by omega))
    · exact hp.ends_of_done ha hst b

/-- Settles O58: a command in flight has at most `4 Nr + 2` turns left, and the last step is the read that ends
`POLL`. -/
theorem pollTerminates : Obligations.PollTerminates := by
  intro s hi hb hhost
  have hf : inFlight s = true := hi.busy.symm.trans hb
  have hflags : s.status = ⟨true, false, .none⟩ := by
    obtain ⟨hd, he⟩ := hi.flags.1 hb
    rw [← hb, ← hd, ← he]
  refine (Polling.mk hi hhost (.inl hflags)).ends ?_
  have hle := hi.turnsLeft_le
  rw [stepsLeft, hi.nrNat_of_inFlight hf]
  omega

end Sys2Proof.Machine
end

section
/-! PROOFS. Field arithmetic through the ring of polynomials over GF(2) modulo x⁸ + x⁴ + x³ + x + 1: bytes are its
elements written as bits, `gfMul` is its product, and the laws of `gfMul` are the laws of the ring
(spec/40_field_arithmetic.md R55 to R62, R65). -/

namespace Sys2Proof.Machine

open Polynomial

/-! ### The polynomial of a byte -/

theorem toPoly_coeff (b : Byte) (k : Nat) : (toPoly b).coeff k = if b.getLsbD k then 1 else 0 := by
  simp only [toPoly, finsetSum_coeff, apply_ite (fun p : (ZMod 2)[X] => p.coeff k), coeff_X_pow, coeff_zero]
  by_cases hk : k < 8
  · rw [Finset.sum_eq_single_of_mem k (Finset.mem_range.2 hk) fun j _ hj => by rw [if_neg hj.symm, ite_self], if_pos rfl]
  · rw [BitVec.getLsbD_of_ge b k (by omega), if_neg Bool.false_ne_true]
    refine Finset.sum_eq_zero fun j hj => ?_
    have hkj : k ≠ j := fun e => hk (e ▸ Finset.mem_range.1 hj)
    rw [if_neg hkj, ite_self]

theorem toPoly_injective {a b : Byte} (h : toPoly a = toPoly b) : a = b := by
  refine BitVec.eq_of_getLsbD_eq fun k _ => ?_
  have hk : (toPoly a).coeff k = (toPoly b).coeff k := by rw [h]
  rw [toPoly_coeff, toPoly_coeff] at hk
  cases ha : a.getLsbD k <;> cases hb : b.getLsbD k <;> simp [ha, hb] at hk ⊢

@[simp] theorem toPoly_xor (a b : Byte) : toPoly (a ^^^ b) = toPoly a + toPoly b := by
  ext k
  rw [coeff_add, toPoly_coeff, toPoly_coeff, toPoly_coeff, BitVec.getLsbD_xor]
  cases a.getLsbD k <;> cases b.getLsbD k <;> decide

@[simp] theorem toPoly_zero : toPoly 0#8 = 0 := by
  simp [toPoly]

@[simp] theorem toPoly_one : toPoly 1#8 = 1 := by
  simp [toPoly]

theorem toPoly_degree_lt (b : Byte) : (toPoly b).degree < 8 :=
  (degree_lt_iff_coeff_zero _ 8).2 fun k hk => by
    rw [toPoly_coeff, BitVec.getLsbD_of_ge b k hk, if_neg Bool.false_ne_true]

theorem redPoly_degree : redPoly.degree = 8 := by
  unfold redPoly; compute_degree!

/-- R57: the low byte of the reduction polynomial stands for its terms below x⁸. -/
theorem redPoly_eq : redPoly = X ^ 8 + toPoly reductionByte := by
  have hlow : toPoly reductionByte = 1 + X + X ^ 3 + X ^ 4 := by
    simp [toPoly, reductionByte, Finset.sum_range_succ]
  rw [redPoly, hlow]
  ring

/-- A left shift by one is multiplication by x, up to the bit shifted out. -/
theorem X_mul_toPoly (b : Byte) : X * toPoly b = toPoly (b <<< 1) + if b.getLsbD 7 then X ^ 8 else 0 := by
  have hshift : toPoly (b <<< 1) = ∑ k ∈ Finset.range 7, if b.getLsbD k then X ^ (k + 1) else 0 := by
    rw [toPoly, Finset.sum_range_succ', BitVec.getLsbD_shiftLeft]
    refine (add_zero _).trans (Finset.sum_congr rfl fun k hk => ?_)
    have hk8 : k + 1 < 8 := Nat.succ_lt_succ (Finset.mem_range.1 hk)
    rw [BitVec.getLsbD_shiftLeft, decide_eq_true hk8]
    rfl
  rw [hshift, toPoly, Finset.mul_sum, Finset.sum_range_succ]
  simp only [mul_ite, mul_zero, ← pow_succ']

/-! ### The residue of a byte -/

/-- A byte as an element of the ring of polynomials over GF(2) modulo the reduction polynomial. -/
noncomputable def residue (b : Byte) : AdjoinRoot redPoly := AdjoinRoot.mk redPoly (toPoly b)

@[simp] theorem residue_xor (a b : Byte) : residue (a ^^^ b) = residue a + residue b := by
  rw [residue, toPoly_xor, map_add]; rfl

@[simp] theorem residue_zero : residue 0#8 = 0 := by rw [residue, toPoly_zero, map_zero]

@[simp] theorem residue_one : residue 1#8 = 1 := by rw [residue, toPoly_one, map_one]

/-- Distinct bytes have distinct residues: their polynomials have lower degree than the reduction polynomial. -/
theorem residue_injective {a b : Byte} (h : residue a = residue b) : a = b := by
  have hdvd : redPoly ∣ toPoly (a ^^^ b) := by
    rw [toPoly_xor, ← CharTwo.sub_eq_add]; exact AdjoinRoot.mk_eq_mk.1 h
  have hdeg : (toPoly (a ^^^ b)).degree < redPoly.degree := redPoly_degree ▸ toPoly_degree_lt _
  have hzero : toPoly (a ^^^ b) = toPoly 0#8 := by
    rw [eq_zero_of_dvd_of_degree_lt hdvd hdeg, toPoly_zero]
  exact BitVec.xor_eq_zero_iff.1 (toPoly_injective hzero)

/-- R58: doubling is multiplication by the root x. -/
@[simp] theorem residue_gfDouble (b : Byte) : residue (gfDouble b) = AdjoinRoot.root redPoly * residue b := by
  have hred : AdjoinRoot.mk redPoly (X ^ 8) = AdjoinRoot.mk redPoly (toPoly reductionByte) :=
    AdjoinRoot.mk_eq_mk.2 (by rw [CharTwo.sub_eq_add, ← redPoly_eq])
  rw [residue, residue, ← AdjoinRoot.mk_X, ← map_mul, X_mul_toPoly, map_add, gfDouble]
  cases b.getLsbD 7
  · simp
  · simp [← hred]

/-- The residue of a byte, bit by bit. -/
theorem residue_eq_sum (b : Byte) :
    residue b = ∑ k ∈ Finset.range 8, if b.getLsbD k then AdjoinRoot.root redPoly ^ k else 0 := by
  simp [residue, toPoly, apply_ite (AdjoinRoot.mk redPoly)]

/-! ### The product -/

/-- R59: after `n` iterations the running copy is the first operand times xⁿ. -/
theorem residue_gfMul_copy (a b : Byte) (n : Nat) :
    residue ((List.range n).foldl (gfMulStep b) (0#8, a)).2 = AdjoinRoot.root redPoly ^ n * residue a := by
  induction n with
  | zero => simp
  | succ n ih => simp [List.range_succ, gfMulStep, ih, pow_succ', mul_assoc]

/-- R59: after `n` iterations the accumulator is the first operand times the low `n` bits of the second. -/
theorem residue_gfMul_accumulator (a b : Byte) (n : Nat) :
    residue ((List.range n).foldl (gfMulStep b) (0#8, a)).1 =
      residue a * ∑ k ∈ Finset.range n, if b.getLsbD k then AdjoinRoot.root redPoly ^ k else 0 := by
  induction n with
  | zero => simp
  | succ n ih =>
    rw [List.range_succ, List.foldl_append, Finset.sum_range_succ, mul_add, ← ih]
    simp only [List.foldl_cons, List.foldl_nil, gfMulStep]
    cases b.getLsbD n
    · simp
    · simp [residue_gfMul_copy, mul_comm]

@[simp] theorem residue_gfMul (a b : Byte) : residue (gfMul a b) = residue a * residue b := by
  rw [residue_eq_sum b]; exact residue_gfMul_accumulator a b 8

/-- Settles O28: the product of two residues is the residue of `gfMul`, so the polynomials differ by a multiple of the
reduction polynomial. -/
theorem gfMulIsPolynomialProduct : Obligations.GfMulIsPolynomialProduct := by
  refine ⟨fun a b => ?_, toPoly_xor, fun _ _ => toPoly_injective⟩
  have h : AdjoinRoot.mk redPoly (toPoly a * toPoly b) = AdjoinRoot.mk redPoly (toPoly (gfMul a b)) := by
    rw [map_mul]; exact (residue_gfMul a b).symm
  obtain ⟨q, hq⟩ := AdjoinRoot.mk_eq_mk.1 h
  exact ⟨q, by rw [mul_comm q, ← hq, add_sub_cancel]⟩

/-! ### The laws of a commutative ring -/

theorem gfMul_comm (a b : Byte) : gfMul a b = gfMul b a :=
  residue_injective (by simp [mul_comm])

theorem gfMul_assoc (a b c : Byte) : gfMul (gfMul a b) c = gfMul a (gfMul b c) :=
  residue_injective (by simp [mul_assoc])

theorem gfMul_xor (a b c : Byte) : gfMul a (b ^^^ c) = gfMul a b ^^^ gfMul a c :=
  residue_injective (by simp [mul_add])

@[simp] theorem gfMul_one (a : Byte) : gfMul a 1#8 = a :=
  residue_injective (by simp)

@[simp] theorem gfMul_zero (a : Byte) : gfMul a 0#8 = 0#8 :=
  residue_injective (by simp)

/-! ### Powers -/

@[simp] theorem residue_gfPow (a : Byte) (n : Nat) : residue (gfPow a n) = residue a ^ n := by
  induction n with
  | zero => exact residue_one
  | succ n ih => rw [gfPow, residue_gfMul, ih, pow_succ]

theorem gfMul_gfPow (a : Byte) (m n : Nat) : gfMul (gfPow a m) (gfPow a n) = gfPow a (m + n) :=
  residue_injective (by simp [pow_add])

/-- The products of the chain of R61 add the exponents up to 254. -/
theorem gfInv_eq_gfPow (a : Byte) : gfInv a = gfPow a 254 := by
  have hsquare : gfMul a a = gfPow a 2 := residue_injective (by simp [pow_two])
  simp only [gfInv, hsquare, gfMul_gfPow, Nat.reduceAdd]

/-- The root x has order 51, so that its 256th power is x itself. -/
theorem root_pow_card : AdjoinRoot.root redPoly ^ 256 = AdjoinRoot.root redPoly := by
  have hroot : residue 0x02 = AdjoinRoot.root redPoly := by simp [residue_eq_sum, Finset.sum_range_succ]
  have horder : gfPow 0x02 51 = 1#8 := by decide +kernel
  have hone : AdjoinRoot.root redPoly ^ 51 = 1 := by rw [← hroot, ← residue_gfPow, horder, residue_one]
  rw [show 256 = 51 * 5 + 1 from rfl, pow_succ, pow_mul, hone, one_pow, one_mul]

/-- The 256th power is a homomorphism, squaring done eight times, and it fixes the root x: it fixes every residue. -/
theorem gfPow_card (a : Byte) : gfPow a 256 = a := by
  have hpow (r : AdjoinRoot redPoly) : (FiniteField.frobeniusAlgHom (ZMod 2) (AdjoinRoot redPoly) ^ 8) r = r ^ 256 := by
    rw [AlgHom.coe_pow, FiniteField.coe_frobeniusAlgHom, pow_iterate, ZMod.card]
  have hid : FiniteField.frobeniusAlgHom (ZMod 2) (AdjoinRoot redPoly) ^ 8 = AlgHom.id _ _ :=
    AdjoinRoot.algHom_ext (by rw [hpow, root_pow_card, AlgHom.id_apply])
  refine residue_injective ?_
  rw [residue_gfPow, ← hpow, hid, AlgHom.id_apply]

/-! ### The inverse -/

/-- The only idempotent bytes are 0 and 1: the ring is no product of two rings. -/
theorem eq_zero_or_one_of_gfMul_self : ∀ a : Byte, gfMul a a = a → a = 0#8 ∨ a = 1#8 := by
  decide +kernel

/-- R61: `a` times its 254th power is idempotent, and it is not 0, because times `a` it is `a` again. -/
theorem gfMul_gfInv {a : Byte} (ha : a ≠ 0#8) : gfMul a (gfInv a) = 1#8 := by
  have hinv : gfMul (gfMul a (gfInv a)) a = a := by
    rw [gfInv_eq_gfPow]
    refine Eq.trans (residue_injective ?_) (gfPow_card a)
    simp only [residue_gfMul, residue_gfPow]
    ring
  have hidem : gfMul (gfMul a (gfInv a)) (gfMul a (gfInv a)) = gfMul a (gfInv a) := by
    rw [← gfMul_assoc, hinv]
  refine (eq_zero_or_one_of_gfMul_self _ hidem).resolve_left fun h => ha ?_
  rw [← hinv, h, gfMul_comm, gfMul_zero]

theorem gfInv_gfMul_cancel {a : Byte} (ha : a ≠ 0#8) (b : Byte) : gfMul (gfInv a) (gfMul a b) = b := by
  rw [← gfMul_assoc, gfMul_comm (gfInv a), gfMul_gfInv ha, gfMul_comm, gfMul_one]

theorem eq_zero_or_eq_zero_of_gfMul {a b : Byte} (h : gfMul a b = 0#8) : a = 0#8 ∨ b = 0#8 :=
  or_iff_not_imp_left.2 fun ha => by rw [← gfInv_gfMul_cancel ha b, h, gfMul_zero]

/-- Settles O29: the laws are those of the ring of residues, and a nonzero factor is cancelled by its inverse. -/
theorem gfMulLaws : Obligations.GfMulLaws :=
  ⟨gfMul_comm, gfMul_assoc, gfMul_xor, fun a => ⟨gfMul_one a, gfMul_zero a⟩, fun _ _ => eq_zero_or_eq_zero_of_gfMul⟩

theorem gfMul_eq_one_iff {a : Byte} (ha : a ≠ 0#8) (b : Byte) : gfMul a b = 1#8 ↔ b = gfInv a := by
  constructor
  · intro h
    rw [← gfInv_gfMul_cancel ha b, h, gfMul_one]
  · rintro rfl
    exact gfMul_gfInv ha

/-- Settles O30: cancellation makes the inverse unique, and the chain is the 254th power. -/
theorem inverseIsUnique : Obligations.InverseIsUnique :=
  ⟨gfMul_zero _, fun _ b ha => gfMul_eq_one_iff ha b, gfInv_eq_gfPow⟩

end Sys2Proof.Machine
end

section
/-! PROOFS. The substitution box: the affine map is a sum of rotations, and sums of rotations multiply like polynomials in
the rotation by one position, so the two affine maps undo each other; the field inverse undoes itself
(spec/41_sbox.md R68 to R71). -/

namespace Sys2Proof.Machine

/-! ### Rotations (R9) -/

/-- R68: rotation by `n` puts bit `k - n` at position `k`, the positions taken modulo 8. -/
theorem rotl8_getLsbD (a : Byte) {n k : Nat} (hn : n < 8) (hk : k < 8) :
    (rotl8 a n).getLsbD k = a.getLsbD ((k + (8 - n)) % 8) := by
  rw [rotl8, BitVec.getLsbD_xor, BitVec.getLsbD_shiftLeft, BitVec.getLsbD_ushiftRight]
  by_cases h : k < n
  · have hlow : (k + (8 - n)) % 8 = 8 - n + k := by omega
    simp [h, hlow]
  · have hhigh : (k + (8 - n)) % 8 = k - n := by omega
    have hout : 8 ≤ 8 - n + k := by omega
    simp [h, hk, hhigh, BitVec.getLsbD_of_ge a _ hout]

theorem rotl8_xor (a b : Byte) (n : Nat) : rotl8 (a ^^^ b) n = rotl8 a n ^^^ rotl8 b n := by
  simp only [rotl8, BitVec.shiftLeft_xor_distrib, BitVec.ushiftRight_xor_distrib]
  ac_rfl

theorem rotl8_zero (a : Byte) : rotl8 a 0 = a := by
  refine BitVec.eq_of_getLsbD_eq fun k hk => ?_
  rw [rotl8_getLsbD a (by decide) hk, Nat.add_mod_right, Nat.mod_eq_of_lt hk]

theorem rotl8_rotl8 (a : Byte) {m n : Nat} (hm : m < 8) (hn : n < 8) :
    rotl8 (rotl8 a m) n = rotl8 a ((m + n) % 8) := by
  refine BitVec.eq_of_getLsbD_eq fun k hk => ?_
  have hmod : (m + n) % 8 < 8 := Nat.mod_lt _ (by decide)
  rw [rotl8_getLsbD _ hn hk, rotl8_getLsbD _ hm (Nat.mod_lt _ (by decide)), rotl8_getLsbD _ hmod hk]
  congr 1
  omega

/-! ### The affine maps -/

theorem affine_getLsbD (i : Byte) {k : Nat} (hk : k < 8) :
    (affine i).getLsbD k =
      (i.getLsbD k ^^ i.getLsbD ((k + 7) % 8) ^^ i.getLsbD ((k + 6) % 8) ^^ i.getLsbD ((k + 5) % 8) ^^
        i.getLsbD ((k + 4) % 8) ^^ (0x63 : Byte).getLsbD k) := by
  simp only [affine, BitVec.getLsbD_xor]
  iterate 4 rw [rotl8_getLsbD i (by decide) hk]

/-- Settles O31: bit `k` of the affine map of the inverse. -/
theorem sboxBits : Obligations.SboxBits := fun _ k => affine_getLsbD _ k.isLt

/-- R68, R69: the rotations by 1, 3 and 6 of the rotations by 0 to 4 meet every position but 0 twice, and those of the
constant cancel the other constant. -/
theorem invAffine_affine (i : Byte) : invAffine (affine i) = i := by
  have hconst : rotl8 0x63 1 ^^^ rotl8 0x63 3 ^^^ rotl8 0x63 6 ^^^ 0x05 = 0#8 := by decide
  have hleft (x y z : Byte) : x ^^^ (y ^^^ z) = y ^^^ (x ^^^ z) := by ac_rfl
  have hrot : invAffine (affine i) = i ^^^ (rotl8 0x63 1 ^^^ rotl8 0x63 3 ^^^ rotl8 0x63 6 ^^^ 0x05) := by
    simp only [affine, invAffine, rotl8_xor, rotl8_rotl8, rotl8_zero, Nat.reduceLT, Nat.reduceAdd, Nat.reduceMod]
    simp only [BitVec.xor_assoc, BitVec.xor_comm, hleft, xor_cancel_left]
  rw [hrot, hconst, BitVec.xor_zero]

/-! ### The substitution functions -/

@[simp] theorem gfInv_zero : gfInv 0#8 = 0#8 := inverseIsUnique.1

/-- R61, R71: the inverse of the inverse, with 0 its own inverse. -/
@[simp] theorem gfInv_gfInv (a : Byte) : gfInv (gfInv a) = a := by
  by_cases ha : a = 0#8
  · rw [ha, gfInv_zero, gfInv_zero]
  · have hmul : gfMul (gfInv a) a = 1#8 := by rw [gfMul_comm, gfMul_gfInv ha]
    have hinv : gfInv a ≠ 0#8 := fun h => by
      rw [h, gfMul_comm, gfMul_zero] at hmul
      exact absurd hmul (by decide)
    exact ((gfMul_eq_one_iff hinv a).1 hmul).symm

/-- R62, R71: the chain maps 0 to 0, so that the test for 0 changes nothing. -/
theorem ite_zero_gfInv (b : Byte) : (if b = 0x00 then 0x00 else gfInv b) = gfInv b :=
  ite_eq_right_iff.2 fun h => by rw [h]; exact gfInv_zero.symm

theorem sbox_eq (b : Byte) : sbox b = affine (gfInv b) := congrArg affine (ite_zero_gfInv b)

theorem invSbox_eq (s : Byte) : invSbox s = gfInv (invAffine s) := ite_zero_gfInv (invAffine s)

theorem invSbox_sbox (x : Byte) : invSbox (sbox x) = x := by
  rw [sbox_eq, invSbox_eq, invAffine_affine, gfInv_gfInv]

/-- R70: a left inverse on the finite set of bytes is a right inverse. -/
theorem sbox_invSbox (x : Byte) : sbox (invSbox x) = x :=
  Function.LeftInverse.rightInverse_of_card_le invSbox_sbox le_rfl x

/-- Settles O32: the inverse maps of the two steps of `sbox`, taken in the opposite order. -/
theorem sboxRoundTrip : Obligations.SboxRoundTrip := fun x => ⟨invSbox_sbox x, sbox_invSbox x⟩

end Sys2Proof.Machine
end

section
/-! PROOFS. The byte lanes of the round engines and the rotations of the rows, with what each undoes
(spec/42_round_transformations.md R74 to R77, R82, R83). -/

namespace Sys2Proof.Machine

/-! ### Byte lanes -/

theorem invSubBytes_subBytes (s : Block) : invSubBytes (subBytes s) = s :=
  Vector.ext fun i hi => by rw [invSubBytes_getElem, subBytes_getElem, invSbox_sbox]

theorem subBytes_invSubBytes (s : Block) : subBytes (invSubBytes s) = s :=
  Vector.ext fun i hi => by rw [subBytes_getElem, invSubBytes_getElem, sbox_invSbox]

theorem addRoundKey_addRoundKey (s k : Block) : addRoundKey (addRoundKey s k) k = s :=
  Vector.ext fun i hi => by rw [addRoundKey_getElem, addRoundKey_getElem, xor_cancel_right]

/-- Settles O34: the substitution functions undo each other in every byte lane, and XOR with the same byte cancels. -/
theorem byteLaneEnginesInvert : Obligations.ByteLaneEnginesInvert := fun s k =>
  ⟨invSubBytes_subBytes s, subBytes_invSubBytes s, addRoundKey_addRoundKey s k⟩

/-! ### Rows -/

/-- Two states with the same byte in every row and column are equal. -/
theorem block_ext_row_column {s t : Block}
    (h : ∀ r c : Fin 4, s[4 * c.val + r.val] = t[4 * c.val + r.val]) : s = t := by
  refine block_ext_column fun c => Vector.ext fun r hr => ?_
  rw [column_getElem, column_getElem]
  exact h ⟨r, hr⟩ c

theorem shiftRows_row_column (s : Block) (r c : Fin 4) :
    (shiftRows s)[4 * c.val + r.val] = s[4 * ((c.val + r.val) % 4) + r.val] := by
  have hcol : (4 * c.val + r.val) / 4 = c.val := by omega
  have hrow : (4 * c.val + r.val) % 4 = r.val := by omega
  simp only [shiftRows_getElem, hcol, hrow]

theorem invShiftRows_row_column (s : Block) (r c : Fin 4) :
    (invShiftRows s)[4 * c.val + r.val] = s[4 * ((c.val + 4 - r.val) % 4) + r.val] := by
  have hcol : (4 * c.val + r.val) / 4 = c.val := by omega
  have hrow : (4 * c.val + r.val) % 4 = r.val := by omega
  simp only [invShiftRows_getElem, hcol, hrow]

theorem invShiftRows_shiftRows (s : Block) : invShiftRows (shiftRows s) = s := by
  refine block_ext_row_column fun r c => ?_
  have hback : ((c.val + 4 - r.val) % 4 + r.val) % 4 = c.val := by omega
  rw [invShiftRows_row_column, shiftRows_row_column s r ⟨(c.val + 4 - r.val) % 4, Nat.mod_lt _ (by decide)⟩]
  simp only [hback]

theorem shiftRows_invShiftRows (s : Block) : shiftRows (invShiftRows s) = s := by
  refine block_ext_row_column fun r c => ?_
  have hback : ((c.val + r.val) % 4 + 4 - r.val) % 4 = c.val := by omega
  rw [shiftRows_row_column, invShiftRows_row_column s r ⟨(c.val + r.val) % 4, Nat.mod_lt _ (by decide)⟩]
  simp only [hback]

/-- Settles O33: the rotations by row and column, which undo each other because the columns they add and subtract
cancel modulo 4. -/
theorem rowShiftsRotate : Obligations.RowShiftsRotate := fun s =>
  ⟨fun r c => ⟨shiftRows_row_column s r c, invShiftRows_row_column s r c⟩, invShiftRows_shiftRows s,
    shiftRows_invShiftRows s⟩

/-! ### Lanes -/

/-- R76, R77: the two source places of byte `i` are in its row, and the state does not choose them. -/
theorem rowShifts_source (i : Fin 16) :
    ∃ j l : Fin 16, j.val % 4 = i.val % 4 ∧ l.val % 4 = i.val % 4 ∧
      ∀ s : Block, (shiftRows s)[i] = s[j] ∧ (invShiftRows s)[i] = s[l] := by
  refine ⟨⟨4 * ((i.val / 4 + i.val % 4) % 4) + i.val % 4, by omega⟩,
    ⟨4 * ((i.val / 4 + 4 - i.val % 4) % 4) + i.val % 4, by omega⟩, ?_, ?_, fun s => ⟨?_, ?_⟩⟩
  · exact (Nat.mul_add_mod ..).trans (Nat.mod_mod ..)
  · exact (Nat.mul_add_mod ..).trans (Nat.mod_mod ..)
  · exact shiftRows_getElem s i i.isLt
  · exact invShiftRows_getElem s i i.isLt

/-- Settles O36: each result byte or column is a function of the same byte or column, and the row shifts move whole
bytes. -/
theorem laneStructure : Obligations.LaneStructure := by
  refine ⟨fun s t k l i hs hk => ?_, fun s t c h => ?_, rowShifts_source⟩
  · rw [Fin.getElem_fin, Fin.getElem_fin] at hs hk
    simp only [Fin.getElem_fin, subBytes_getElem, invSubBytes_getElem, addRoundKey_getElem, hs, hk, and_self]
  · simp only [column_mixColumns, column_invMixColumns, h, and_self]

end Sys2Proof.Machine
end

section
/-! PROOFS. Column mixing: the two mixing functions multiply a column by a matrix over the ring of residues, and the two
matrices of R78 are inverse to each other (spec/42_round_transformations.md R78 to R81). -/

namespace Sys2Proof.Machine

/-! ### The matrices -/

/-- R78: the forward mixing matrix. -/
def mixMatrix : Matrix (Fin 4) (Fin 4) Byte :=
  !![0x02, 0x03, 0x01, 0x01;
     0x01, 0x02, 0x03, 0x01;
     0x01, 0x01, 0x02, 0x03;
     0x03, 0x01, 0x01, 0x02]

/-- R78: the inverse mixing matrix. -/
def invMixMatrix : Matrix (Fin 4) (Fin 4) Byte :=
  !![0x0e, 0x0b, 0x0d, 0x09;
     0x09, 0x0e, 0x0b, 0x0d;
     0x0d, 0x09, 0x0e, 0x0b;
     0x0b, 0x0d, 0x09, 0x0e]

/-- Byte `i` of a matrix times a column, in the model's arithmetic. -/
def mulColumn (m : Matrix (Fin 4) (Fin 4) Byte) (a : Word) (i : Fin 4) : Byte := dot (m i 0) (m i 1) (m i 2) (m i 3) a

theorem mixColumn_eq (a : Word) : mixColumn a = Vector.ofFn (mulColumn mixMatrix a) := rfl

theorem invMixColumn_eq (a : Word) : invMixColumn a = Vector.ofFn (mulColumn invMixMatrix a) := rfl

/-! ### The residues of a column -/

/-- The four bytes of a column as elements of the ring. -/
noncomputable def residues (a : Word) : Fin 4 → AdjoinRoot redPoly := fun j => residue a[j]

theorem residues_injective {a b : Word} (h : residues a = residues b) : a = b :=
  Vector.ext fun j hj => residue_injective (congrFun h ⟨j, hj⟩)

theorem residues_ofFn (f : Fin 4 → Byte) : residues (Vector.ofFn f) = fun j => residue (f j) :=
  funext fun j => by simp [residues]

/-- The model's product of a matrix and a column is the product over the ring. -/
theorem residue_mulColumn (m : Matrix (Fin 4) (Fin 4) Byte) (a : Word) (i : Fin 4) :
    residue (mulColumn m a i) = (m.map residue).mulVec (residues a) i := by
  simp [mulColumn, dot, residues, Matrix.mulVec, dotProduct, Fin.sum_univ_four]

theorem residues_mixColumn (a : Word) : residues (mixColumn a) = (mixMatrix.map residue).mulVec (residues a) := by
  rw [mixColumn_eq, residues_ofFn]
  exact funext (residue_mulColumn mixMatrix a)

theorem residues_invMixColumn (a : Word) :
    residues (invMixColumn a) = (invMixMatrix.map residue).mulVec (residues a) := by
  rw [invMixColumn_eq, residues_ofFn]
  exact funext (residue_mulColumn invMixMatrix a)

/-! ### The inverse -/

/-- R81: the product of the two matrices, one column of the forward matrix at a time. -/
theorem mulColumn_invMixMatrix_mixMatrix : ∀ i j : Fin 4,
    mulColumn invMixMatrix (Vector.ofFn fun k => mixMatrix k j) i = if i = j then 1#8 else 0#8 := by
  decide

theorem invMixMatrix_mul_mixMatrix : invMixMatrix.map residue * mixMatrix.map residue = 1 := by
  ext i j
  have hentry := residue_mulColumn invMixMatrix (Vector.ofFn fun k => mixMatrix k j) i
  rw [mulColumn_invMixMatrix_mixMatrix, residues_ofFn, apply_ite residue, residue_one, residue_zero] at hentry
  exact hentry.symm

theorem invMixColumn_mixColumn (a : Word) : invMixColumn (mixColumn a) = a :=
  residues_injective <| by
    rw [residues_invMixColumn, residues_mixColumn, Matrix.mulVec_mulVec, invMixMatrix_mul_mixMatrix, Matrix.one_mulVec]

/-- A left inverse of a square matrix over a commutative ring is a right inverse. -/
theorem mixColumn_invMixColumn (a : Word) : mixColumn (invMixColumn a) = a :=
  residues_injective <| by
    rw [residues_mixColumn, residues_invMixColumn, Matrix.mulVec_mulVec,
      mul_eq_one_comm.1 invMixMatrix_mul_mixMatrix, Matrix.one_mulVec]

/-- Settles O35: the two matrices are inverse to each other over the ring of residues. -/
theorem mixColumnsInvert : Obligations.MixColumnsInvert := fun c => ⟨invMixColumn_mixColumn c, mixColumn_invMixColumn c⟩

end Sys2Proof.Machine
end

section
/-! PROOFS. The key schedule: its round constants, the recurrence it satisfies, and that `KS` holds it from `EXPAND` to
the completion of a command (spec/43_key_schedule.md R86, R87, R91). -/

namespace Sys2Proof.Machine

/-! ### Words of a growing list -/

theorem wordAt_of_lt {w : List Word} {i : Nat} (hi : i < w.length) : wordAt w i = w[i] :=
  (List.getElem_eq_getD zeroWord).symm

/-- A word once there is the same word of every longer list. -/
theorem wordAt_of_prefix {w w' : List Word} (hp : w <+: w') {i : Nat} (hi : i < w.length) :
    wordAt w' i = wordAt w i := by
  rw [wordAt_of_lt hi, wordAt_of_lt (hi.trans_le hp.length_le), hp.getElem hi]

/-- R88: word `i` depends on the words `i - nk` and `i - 1` only, so later words do not change it. -/
theorem nextWord_of_prefix {w w' : List Word} (hp : w <+: w') {nk i : Nat} (hnk : 0 < nk) (hi : nk ≤ i)
    (hw : i ≤ w.length) : nextWord nk i w' = nextWord nk i w := by
  rw [nextWord, nextWord, wordAt_of_prefix hp (by omega), wordAt_of_prefix hp (by omega)]

/-- R87, steps 2 and 3: every appended word is the next word of the finished list. -/
theorem wordAt_expandFrom {nk n i : Nat} {w : List Word} (hnk : 0 < nk) (hw : nk ≤ w.length) (hi : w.length ≤ i)
    (hn : i < w.length + n) : wordAt (expandFrom nk n w) i = nextWord nk i (expandFrom nk n w) := by
  induction n generalizing w with
  | zero => omega
  | succ n ih =>
    rw [expandFrom]
    rcases hi.eq_or_lt with rfl | hlt
    · have hp := expandFrom_prefix nk n (w ++ [nextWord nk w.length w])
      rw [nextWord_of_prefix ((List.prefix_append w _).trans hp) hnk hw le_rfl, wordAt_of_prefix hp (by simp)]
      exact (wordAt_of_lt (by simp)).trans (List.getElem_concat_length rfl _)
    · have hlen : (w ++ [nextWord nk w.length w]).length = w.length + 1 := List.length_append
      exact ih (by omega) (by omega) (by omega)

/-! ### The schedule of a key -/

/-- R33: the bytes of a word of the raw key. -/
theorem keyWord_getElem (key : List Byte) (i j : Nat) (hj : j < 4) : (keyWord key i)[j] = key.getD (4 * i + j) 0 := by
  match j, hj with
  | 0, _ => rfl
  | 1, _ => rfl
  | 2, _ => rfl
  | 3, _ => rfl

theorem keyExpansion_length (key : List Byte) {nk nr : Nat} (h : LegalSizes nk nr) :
    (keyExpansion key nk nr).length = scheduleLength nr := by
  rw [keyExpansion, expandFrom_length, List.length_map, List.length_range, scheduleLength]
  omega

section
variable (key : List Byte) {nk nr i : Nat}

/-- R87, step 1: the first `Nk` words are the words of the raw key. -/
theorem wordAt_keyExpansion_of_lt (hi : i < nk) : wordAt (keyExpansion key nk nr) i = keyWord key i := by
  have hlen : i < ((List.range nk).map (keyWord key)).length := by simpa using hi
  rw [keyExpansion, wordAt_of_prefix (expandFrom_prefix nk _ _) hlen, wordAt_of_lt hlen, List.getElem_map,
    List.getElem_range]

/-- R87: each later word is the next word of the whole schedule. -/
theorem wordAt_keyExpansion_of_le (hnk : 0 < nk) (hi : nk ≤ i) (hn : i < scheduleLength nr) :
    wordAt (keyExpansion key nk nr) i = nextWord nk i (keyExpansion key nk nr) := by
  have hlen : ((List.range nk).map (keyWord key)).length = nk := by simp
  exact wordAt_expandFrom hnk hlen.ge (hlen.trans_le hi) (by omega)

end

/-- Settles O38: the key words by `wordAt_keyExpansion_of_lt`, the later words by the recurrence of `expandFrom`. -/
theorem scheduleRecurrence : Obligations.ScheduleRecurrence := by
  intro key nk nr hsizes hlen
  have hnk : 0 < nk := by omega
  refine ⟨keyExpansion_length key hsizes, fun i j hi => ?_, fun i => wordAt_keyExpansion_of_le key hnk⟩
  have hbyte : 4 * i + j.val < key.length := by omega
  rw [wordAt_keyExpansion_of_lt key hi, keyWord_getElem, List.getElem?_eq_getElem hbyte,
    List.getElem_eq_getD 0]

/-- Settles O39: the table entry by entry. -/
theorem roundConstantsArePowers : Obligations.RoundConstantsArePowers :=
  ⟨rfl, by decide, by decide, rfl⟩

/-! ### `KS` from `EXPAND` to the completion -/

/-- R87: the stored schedule reads back. -/
theorem wordAt_storeSchedule {w : List Word} {ks : Schedule} {i : Nat} (hi : i < w.length) (hw : w.length ≤ 60) :
    wordAt (storeSchedule w ks).toList i = wordAt w i := by
  have h60 : i < 60 := hi.trans_le hw
  rw [wordAt_of_lt (by simpa using h60), wordAt_of_lt hi, Vector.getElem_toList, storeSchedule_getElem _ _ _ h60]
  exact (List.getElem_eq_getD _).symm

/-- With no command in flight nothing is claimed of `KS`. -/
theorem scheduleHeld_of_idle {s : State} (h : inFlight s = false) : ScheduleHeld s :=
  fun hf => nomatch h.symm.trans hf

/-- A step that leaves `KS`, `KEY` and `CFG`, and is not step `EXPAND`, keeps the schedule. -/
theorem ScheduleHeld.of_frame {s t : State} (hs : ScheduleHeld s) (hks : t.ks = s.ks) (hkey : t.key = s.key)
    (hcfg : t.cfg = s.cfg)
    (hpos : inFlight t = true → t.seq.phase ≠ .expand → inFlight s = true ∧ s.seq.phase ≠ .expand) :
    ScheduleHeld t := by
  intro hf hp
  rw [State.commandSchedule, State.rounds, hks, hkey, hcfg]
  exact hs (hpos hf hp).1 (hpos hf hp).2

theorem ScheduleHeld.of_sameCore {s t : State} (hs : ScheduleHeld s) (h : SameCore s t) : ScheduleHeld t := by
  rw [h]; exact hs

theorem expandStep_commandSchedule (s : State) : (expandStep s).commandSchedule = s.commandSchedule := by
  rw [State.commandSchedule, State.commandSchedule, expandStep_key, expandStep_cfg]

/-- R100: after step `EXPAND` of a legal pair `KS` holds the schedule, which fits in its 60 words. -/
theorem scheduleHeld_expandStep {s : State} (hl : legalPair s.cfg.nkl s.cfg.nrl = true) :
    ScheduleHeld (expandStep s) := by
  intro _ _ i hi
  rw [State.rounds, expandStep_cfg] at hi
  have hlen : s.commandSchedule.length = scheduleLength s.rounds :=
    keyExpansion_length _ ((legalPair_iff_sizes _ _).1 hl)
  have hfits : s.commandSchedule.length ≤ 60 := by
    have hrounds := (rounds_of_legalPair hl).2
    rw [hlen, scheduleLength]
    omega
  rw [expandStep_ks, expandStep_commandSchedule]
  exact wordAt_storeSchedule (hlen.symm ▸ hi) hfits

/-- R23: of the steps of a `CIPHER` command only `EXPAND` writes `KS`. -/
theorem encStep_ks {s : State} (hp : s.seq.phase ≠ .expand) : (encStep s).ks = s.ks := by
  unfold encStep
  cases hq : s.seq.phase with
  | expand => exact absurd hq hp
  | _ => simp [encInitStep, encSubStep, encShiftStep, encMixStep, encAddStep]

/-- R23: of the steps of an `INVCIPHER` command only `EXPAND` writes `KS`. -/
theorem decStep_ks {s : State} (hp : s.seq.phase ≠ .expand) : (decStep s).ks = s.ks := by
  unfold decStep
  cases hq : s.seq.phase with
  | expand => exact absurd hq hp
  | _ => simp [decInitStep, decSubStep, decShiftStep, decMixStep, decAddStep]

/-- What a turn of the core does to `KS`: the core is idle, the turn is step `EXPAND`, or `KS` stays. -/
theorem coreTurn_ks {s t : State} (h : coreTurn s = .next t) :
    t = s ∨
    (legalPair s.cfg.nkl s.cfg.nrl = true ∧ t = expandStep s) ∨
    (inFlight s = true ∧ s.seq.phase ≠ .expand ∧ t.ks = s.ks) := by
  rcases coreTurn_cases h with ⟨-, rfl⟩ | ⟨hop, hl, -, rfl⟩ | ⟨hop, hl, -, rfl⟩
  · exact .inl rfl
  · by_cases hp : s.seq.phase = .expand
    · exact .inr (.inl ⟨hl, by rw [encStep, hp]⟩)
    · exact .inr (.inr ⟨(inFlight_iff s).2 (hop ▸ nofun), hp, encStep_ks hp⟩)
  · by_cases hp : s.seq.phase = .expand
    · exact .inr (.inl ⟨hl, by rw [decStep, hp]⟩)
    · exact .inr (.inr ⟨(inFlight_iff s).2 (hop ▸ nofun), hp, decStep_ks hp⟩)

/-- R91: the core derives the schedule once and leaves it unchanged afterwards. -/
theorem coreTurn_keeps_schedule {s t : State} (hs : ScheduleHeld s) (h : coreTurn s = .next t) : ScheduleHeld t := by
  obtain ⟨-, hkey, -, -, hcfg, -⟩ := coreTurn_keeps h
  rcases coreTurn_ks h with rfl | ⟨hl, rfl⟩ | ⟨hf, hp, hks⟩
  · exact hs
  · exact scheduleHeld_expandStep hl
  · exact hs.of_frame hks hkey hcfg fun _ _ => ⟨hf, hp⟩

/-- R93: an ignored write of `CMD` changes nothing, a rejected one leaves the core idle, an accepted one is
at `EXPAND`. -/
theorem command_keeps_schedule {v : Byte} {s t : State} (hi : Inv s) (hs : ScheduleHeld s)
    (h : command v s = .next t) : ScheduleHeld t := by
  obtain ⟨u, hu, hc⟩ := command_cases v s
  obtain rfl := next_unique hu h
  rcases hc with ⟨-, rfl⟩ | ⟨hb, e, -, rfl⟩ | ⟨-, -, op, -, rfl⟩
  · exact hs
  · exact scheduleHeld_of_idle (hi.busy.symm.trans hb)
  · exact fun _ hp => absurd rfl hp

/-- Settles O40, by the cases of a step; a byte is stored in `KEY` only while no command is in flight. -/
theorem scheduleHeldByEveryStep : Obligations.ScheduleHeldByEveryStep := by
  intro s t hi hs h
  rcases step_cases h with ⟨-, hc⟩ | ⟨-, hsame⟩ | ⟨-, rfl⟩ | ⟨-, v, -, hc⟩ | ⟨hb, r, v, -, -, rfl⟩
  · exact coreTurn_keeps_schedule (hs.of_sameCore (sameCore_popTurn s)) hc
  · exact hs.of_sameCore hsame
  · exact scheduleHeld_of_idle rfl
  · exact command_keeps_schedule (s := afterFetch s) (hi.of_sameCore rfl) (hs.of_sameCore rfl) hc
  · refine scheduleHeld_of_idle ?_
    rw [inFlight, storeReg_seq]
    exact hi.busy.symm.trans hb

end Sys2Proof.Machine
end

section
/-! PROOFS. What writing a command does: accepted or rejected, in which order of checks, and what both leave
(spec/44_cipher_orchestration.md R93 to R96, R117). -/

namespace Sys2Proof.Machine

/-! ### Acceptance and rejection -/

/-- R94: the two checks of R93 pass exactly for the legal pairs. -/
theorem checks_iff_validOperands (s : State) :
    keyLenLegal s.nk = true ∧ roundsLegal s.nk s.nr = true ↔ ValidOperands s := by
  rw [← legalPair_iff_validOperands, legalPair, Bool.and_eq_true]

/-- R93: written while idle with a legal pair, a command is accepted. -/
theorem startCommand_of_valid (op : SeqOp) {s : State} (hb : s.status.busy = false) (hv : ValidOperands s) :
    startCommand op s =
      { s with status := ⟨true, false, .none⟩, cfg := ⟨s.nk, s.nr⟩, seq := ⟨op, .expand, 0⟩ } := by
  obtain ⟨hk, hr⟩ := (checks_iff_validOperands s).2 hv
  rw [startCommand_eq, if_neg (Bool.eq_false_iff.1 hb), if_pos hk, if_pos hr]

/-- R93: written while idle with any other pair, a command is rejected, which changes `STATUS` only. -/
theorem startCommand_of_invalid (op : SeqOp) {s : State} (hb : s.status.busy = false) (hv : ¬ ValidOperands s) :
    ∃ e, startCommand op s = { s with status := ⟨false, false, e⟩ } := by
  rw [startCommand_eq, if_neg (Bool.eq_false_iff.1 hb)]
  by_cases hk : keyLenLegal s.nk = true
  · rw [if_pos hk, if_neg fun hr => hv ((checks_iff_validOperands s).1 ⟨hk, hr⟩)]
    exact ⟨.rounds, rfl⟩
  · rw [if_neg hk]
    exact ⟨.keylen, rfl⟩

/-- R93, R95, R96: the next state of an accepted command. -/
theorem exec_of_valid (i : Instr) {s : State} (hb : s.status.busy = false) (hv : ValidOperands s) :
    exec i s = .next
      { s with status := ⟨true, false, .none⟩, cfg := ⟨s.nk, s.nr⟩, seq := ⟨opOf i, .expand, 0⟩ } := by
  rw [exec_eq, startCommand_of_valid (opOf i) hb hv]

/-- Settles O8: acceptance with the direction of `CIPHER`. -/
theorem cipherAccepted : Obligations.CipherAccepted := fun _ => exec_of_valid .cipher

/-- Settles O9: acceptance with the direction of `INVCIPHER`. -/
theorem invcipherAccepted : Obligations.InvcipherAccepted := fun _ => exec_of_valid .invcipher

/-- Settles O10: a legal pair is accepted, and any other leaves `BUSY` at 0 and everything but `STATUS` as it was. -/
theorem validationIsExact : Obligations.ValidationIsExact := by
  intro i s hb
  refine ⟨_, exec_eq i s, ?_⟩
  by_cases hv : ValidOperands s
  · rw [startCommand_of_valid _ hb hv]
    exact ⟨iff_of_true rfl hv, fun h => absurd hv h⟩
  · obtain ⟨e, he⟩ := startCommand_of_invalid (opOf i) hb hv
    rw [he]
    exact ⟨iff_of_false Bool.false_ne_true hv, fun _ => rfl⟩

/-! ### The order of the checks -/

/-- R93: a legal opcode written to `CMD` while idle, with the checks as comparisons of the operands. -/
theorem startCommand_of_idle (op : SeqOp) {s : State} (hb : s.status.busy = false) :
    startCommand op s =
      if s.nk ≠ 4 ∧ s.nk ≠ 6 ∧ s.nk ≠ 8 then { s with status := ⟨false, false, .keylen⟩ }
      else if s.nr.toNat ≠ s.nk.toNat + 6 then { s with status := ⟨false, false, .rounds⟩ }
      else { s with status := ⟨true, false, .none⟩, cfg := ⟨s.nk, s.nr⟩, seq := ⟨op, .expand, 0⟩ } := by
  rw [startCommand_eq, if_neg (Bool.eq_false_iff.1 hb)]
  simp only [keyLenLegal_iff, roundsLegal_iff, ← not_or, ite_not, ne_eq]

/-- Settles O7: busy, then the opcode, then the checks of the operands. -/
theorem commandWriteOutcome : Obligations.CommandWriteOutcome := by
  intro s v
  by_cases hb : s.status.busy = true
  · rw [if_pos hb, memWrite_of_busy _ _ _ hb]
  have hidle : s.status.busy = false := Bool.eq_false_iff.2 hb
  have hcmd : memWrite command 0x00 v s = command v s := memWrite_cmd_of_idle command v hidle
  rw [if_neg hb, hcmd, command_eq]
  by_cases h1 : v = 0x01
  · rw [if_pos h1, if_neg fun h => h.1 h1, if_pos h1, startCommand_of_idle .enc hidle]
  by_cases h2 : v = 0x02
  · rw [if_neg h1, if_pos h2, if_neg fun h => h.2 h2, if_neg h1, startCommand_of_idle .dec hidle]
  · rw [if_neg h1, if_neg h2, if_pos ⟨h1, h2⟩, rejectOpcode_eq, if_neg hb]

/-! ### What a command leaves -/

/-- R45, R93: writing its opcode to `CMD` is what a command does. -/
theorem command_opcode (i : Instr) (s : State) : command (opcode i) s = exec i s := by
  rw [command, (decodeOpcode_eq_command_iff (opcode i) i).2 rfl]

theorem exec_of_busy (i : Instr) {s : State} (hb : s.status.busy = true) : exec i s = .next s := by
  rw [exec_eq, startCommand_eq, if_pos hb]

/-- R38: no offset but `STATUS` shows the flags, and none shows `CFG` or `SEQ`. -/
theorem readOffset_of_ne_status {o : Offset} (ho : o ≠ Reg.offset .status) (s : State) (f : Status) (c : Latched)
    (q : SeqPos) : readOffset o { s with status := f, cfg := c, seq := q } = readOffset o s := by
  rcases offset_cases o with ⟨r, rfl⟩ | hres
  · cases r with
    | status => exact absurd rfl ho
    | _ => simp
  · rw [readOffset_reserved hres, readOffset_reserved hres]

/-- Settles O13: a command is a write of `CMD`, which changes `STATUS`, `CFG` and `SEQ` at most. -/
theorem commandFrame : Obligations.CommandFrame := by
  intro i s t h
  have hbusy (hb : s.status.busy = true) : t = s := next_unique h (exec_of_busy i hb)
  rw [← command_opcode] at h
  have hread (o : Offset) (ho : o ≠ Reg.offset .status) : readOffset o t = readOffset o s := by
    rw [command_frame h]
    exact readOffset_of_ne_status ho s _ _ _
  rw [command_frame h] at hread hbusy ⊢
  exact ⟨rfl, rfl, rfl, rfl, rfl, rfl, rfl, rfl, hread, hbusy⟩

end Sys2Proof.Machine
end

section
/-! PROOFS. The steps of the sequencer: the next state of each at the positions where R100 to R104 enable it, the stops
elsewhere, and that the data plays no part in which step follows (spec/44_cipher_orchestration.md R100 to R104, R106). -/

namespace Sys2Proof.Machine

/-! ### The steps of a legal pair -/

section
variable {s : State} (hl : LegalSizes s.cfg.nkl.toNat s.cfg.nrl.toNat)
include hl

theorem coreTurn_enc_at {p : Phase} {r : BitVec 4} (hq : s.seq = ⟨.enc, p, r⟩)
    (he : encEnabled p r.toNat s.rounds = true) : coreTurn s = .next (encStep s) :=
  coreTurn_enc (by rw [hq]) ((legalPair_iff_sizes _ _).2 hl) (by rw [State.round, hq]; exact he)

theorem coreTurn_dec_at {p : Phase} {r : BitVec 4} (hq : s.seq = ⟨.dec, p, r⟩)
    (he : decEnabled p r.toNat s.rounds = true) : coreTurn s = .next (decStep s) :=
  coreTurn_dec (by rw [hq]) ((legalPair_iff_sizes _ _).2 hl) (by rw [State.round, hq]; exact he)

/-- R100: step `EXPAND`, in both directions. -/
theorem coreTurn_expand {op : SeqOp} (hop : op ≠ .none) (hq : s.seq = ⟨op, .expand, 0⟩) :
    coreTurn s = .next (expandStep s) := by
  cases op with
  | none => exact absurd rfl hop
  | enc => rw [coreTurn_enc_at hl hq rfl, encStep, hq]
  | dec => rw [coreTurn_dec_at hl hq rfl, decStep, hq]

theorem coreTurn_encInit (hq : s.seq = ⟨.enc, .init, 0⟩) :
    coreTurn s = .next (s.advance (addRoundKey s.din (s.roundKeyAt 0)) ⟨.enc, .sub, 1⟩) := by
  rw [coreTurn_enc_at hl hq rfl, encStep, hq, encInitStep]

theorem coreTurn_decInit (hq : s.seq = ⟨.dec, .init, 0⟩) :
    coreTurn s = .next
      (s.advance (addRoundKey s.din (s.roundKeyAt s.rounds)) ⟨.dec, .shift, BitVec.ofNat 4 (s.rounds - 1)⟩) := by
  rw [coreTurn_dec_at hl hq rfl, decStep, hq, decInitStep]

/-- R104: step `STORE`, in both directions and at any round. -/
theorem coreTurn_store {op : SeqOp} {r : BitVec 4} (hop : op ≠ .none) (hq : s.seq = ⟨op, .store, r⟩) :
    coreTurn s = .next (storeStep s) := by
  cases op with
  | none => exact absurd rfl hop
  | enc => rw [coreTurn_enc_at hl hq rfl, encStep, hq]
  | dec => rw [coreTurn_dec_at hl hq rfl, decStep, hq]

section
variable {r : BitVec 4} (h1 : 1 ≤ r.toNat) (hn : r.toNat ≤ s.rounds)
include h1 hn

theorem coreTurn_encSub (hq : s.seq = ⟨.enc, .sub, r⟩) :
    coreTurn s = .next (s.advance (subBytes s.st) ⟨.enc, .shift, r⟩) := by
  rw [coreTurn_enc_at hl hq (by simp [encEnabled, h1, hn]), encStep, hq, encSubStep, hq]

theorem coreTurn_encShift (hq : s.seq = ⟨.enc, .shift, r⟩) :
    coreTurn s = .next (s.advance (shiftRows s.st) ⟨.enc, if r.toNat < s.rounds then .mix else .add, r⟩) := by
  rw [coreTurn_enc_at hl hq (by simp [encEnabled, h1, hn]), encStep, hq, encShiftStep, State.round, hq]

theorem coreTurn_encMix (hq : s.seq = ⟨.enc, .mix, r⟩) :
    coreTurn s = .next (s.advance (mixColumns s.st) ⟨.enc, .add, r⟩) := by
  rw [coreTurn_enc_at hl hq (by simp [encEnabled, h1, hn]), encStep, hq, encMixStep, hq]

theorem coreTurn_encAdd (hq : s.seq = ⟨.enc, .add, r⟩) :
    coreTurn s = .next (s.advance (addRoundKey s.st (s.roundKeyAt r.toNat))
      (if r.toNat < s.rounds then ⟨.enc, .sub, r + 1⟩ else ⟨.enc, .store, r⟩)) := by
  rw [coreTurn_enc_at hl hq (by simp [encEnabled, h1, hn]), encStep, hq, encAddStep, State.round, hq]

end

section
variable {r : BitVec 4} (hn : r.toNat < s.rounds)
include hn

theorem coreTurn_decShift (hq : s.seq = ⟨.dec, .shift, r⟩) :
    coreTurn s = .next (s.advance (invShiftRows s.st) ⟨.dec, .sub, r⟩) := by
  rw [coreTurn_dec_at hl hq (by simp [decEnabled, hn]), decStep, hq, decShiftStep, hq]

theorem coreTurn_decSub (hq : s.seq = ⟨.dec, .sub, r⟩) :
    coreTurn s = .next (s.advance (invSubBytes s.st) ⟨.dec, .add, r⟩) := by
  rw [coreTurn_dec_at hl hq (by simp [decEnabled, hn]), decStep, hq, decSubStep, hq]

theorem coreTurn_decAdd (hq : s.seq = ⟨.dec, .add, r⟩) :
    coreTurn s = .next (s.advance (addRoundKey s.st (s.roundKeyAt r.toNat))
      (if 1 ≤ r.toNat then ⟨.dec, .mix, r⟩ else ⟨.dec, .store, 0⟩)) := by
  rw [coreTurn_dec_at hl hq (by simp [decEnabled, hn]), decStep, hq, decAddStep, State.round, hq]

/-- R103: round 0 has no step `MIX`. -/
theorem coreTurn_decMix (h1 : 1 ≤ r.toNat) (hq : s.seq = ⟨.dec, .mix, r⟩) :
    coreTurn s = .next (s.advance (invMixColumns s.st) ⟨.dec, .shift, r - 1⟩) := by
  rw [coreTurn_dec_at hl hq (by simp [decEnabled, h1, hn]), decStep, hq, decMixStep, hq]

end

/-- R87: the schedule of a legal pair has `4 (Nr + 1)` words. -/
theorem commandSchedule_length : s.commandSchedule.length = 4 * (s.rounds + 1) := keyExpansion_length _ hl

/-- R100: what step `EXPAND` leaves in each word of `KS`. -/
theorem expandStep_ks_getElem (i : Fin 60) :
    (expandStep s).ks[i] = if i.val < 4 * (s.rounds + 1) then wordAt s.commandSchedule i.val else s.ks[i] := by
  have hlen := commandSchedule_length hl
  rw [expandStep_ks, Fin.getElem_fin, storeSchedule_getElem]
  by_cases hi : i.val < 4 * (s.rounds + 1)
  · rw [if_pos hi, wordAt_of_lt (hlen ▸ hi)]
    exact (List.getElem_eq_getD _).symm
  · rw [if_neg hi, List.getD_eq_default _ _ (by omega)]
    rfl

end

/-- Settles O20: the words of `KS` by `expandStep_ks_getElem`. -/
theorem expandStepEffect : Obligations.ExpandStepEffect := by
  intro s op hop hq hl
  refine ⟨(expandStep s).ks, ?_, expandStep_ks_getElem hl⟩
  rw [coreTurn_expand hl hop hq, expandStep, hq]

/-- Settles O21: one lemma for each direction. -/
theorem initStepEffect : Obligations.InitStepEffect := fun _ hl => ⟨coreTurn_encInit hl, coreTurn_decInit hl⟩

/-- Settles O22: one lemma for each row of R102. -/
theorem encryptSteps : Obligations.EncryptSteps := fun _ _ hl h1 hn =>
  ⟨coreTurn_encSub hl h1 hn, coreTurn_encShift hl h1 hn, coreTurn_encMix hl h1 hn, coreTurn_encAdd hl h1 hn⟩

/-- Settles O23: one lemma for each row of R103. -/
theorem decryptSteps : Obligations.DecryptSteps := fun _ _ hl hn =>
  ⟨coreTurn_decShift hl hn, coreTurn_decSub hl hn, coreTurn_decAdd hl hn, coreTurn_decMix hl hn⟩

/-- Settles O24: the completion of either direction. -/
theorem storeStepEffect : Obligations.StoreStepEffect := fun _ _ _ hop hq hl => coreTurn_store hl hop hq

/-! ### The stops -/

/-- Notes/assumptions 9: a command in flight with no legal pair latched stops, at any position. -/
theorem coreTurn_of_illegal {s : State} (hf : inFlight s = true) (hl : ¬ LegalSizes s.cfg.nkl.toNat s.cfg.nrl.toNat) :
    coreTurn s = .fault .unsupportedPair := by
  have hpair : ¬ legalPair s.cfg.nkl s.cfg.nrl = true := mt (legalPair_iff_sizes _ _).1 hl
  rw [coreTurn]
  cases hop : s.seq.op with
  | none => exact absurd hop ((inFlight_iff s).1 hf)
  | enc => exact if_neg hpair
  | dec => exact if_neg hpair

/-- Notes/assumptions 8: with a legal pair latched, a position no rule enables stops. -/
theorem coreTurn_of_not_enabled {s : State} (hf : inFlight s = true)
    (hl : LegalSizes s.cfg.nkl.toNat s.cfg.nrl.toNat)
    (henc : s.seq.op = .enc → encEnabled s.seq.phase s.round s.rounds = false)
    (hdec : s.seq.op = .dec → decEnabled s.seq.phase s.round s.rounds = false) :
    coreTurn s = .fault .noStepEnabled := by
  have hpair : legalPair s.cfg.nkl s.cfg.nrl = true := (legalPair_iff_sizes _ _).2 hl
  rw [coreTurn]
  cases hop : s.seq.op with
  | none => exact absurd hop ((inFlight_iff s).1 hf)
  | enc => exact (if_pos hpair).trans (if_neg (Bool.eq_false_iff.1 (henc hop)))
  | dec => exact (if_pos hpair).trans (if_neg (Bool.eq_false_iff.1 (hdec hop)))

/-- Settles O27: neither direction enables `IDLE`, and decryption does not enable `MIX` in round 0. -/
theorem outsideTheRulesStops : Obligations.OutsideTheRulesStops := by
  intro s hf
  refine ⟨fun hl hpos => coreTurn_of_not_enabled hf hl (fun hop => ?_) (fun hop => ?_), coreTurn_of_illegal hf⟩
  · rcases hpos with hp | hq
    · rw [hp]; rfl
    · rw [hq] at hop; cases hop
  · rcases hpos with hp | hq
    · rw [hp]; rfl
    · rw [State.round, hq]; rfl

/-! ### Control -/

section
variable {s s' : State} (hq : s.seq = s'.seq) (hc : s.cfg = s'.cfg)
include hq hc

theorem encStep_seq_congr : (encStep s).seq = (encStep s').seq := by
  rw [encStep, encStep, ← hq]
  cases s.seq.phase <;>
    simp [encInitStep, encSubStep, encShiftStep, encMixStep, encAddStep, State.round, State.rounds, hq, hc]

theorem decStep_seq_congr : (decStep s).seq = (decStep s').seq := by
  rw [decStep, decStep, ← hq]
  cases s.seq.phase <;>
    simp [decInitStep, decSubStep, decShiftStep, decMixStep, decAddStep, State.round, State.rounds, hq, hc]

/-- R106: what enables a turn of the core and the position it leads to are read off `SEQ` and `CFG`. -/
theorem coreTurn_seq_congr {t : State} (h : coreTurn s = .next t) :
    ∃ t', coreTurn s' = .next t' ∧ t'.seq = t.seq := by
  rcases coreTurn_cases h with ⟨hop, rfl⟩ | ⟨hop, hl, he, rfl⟩ | ⟨hop, hl, he, rfl⟩
  · exact ⟨s', by rw [coreTurn, ← hq, hop], hq.symm⟩
  · rw [State.round, State.rounds] at he
    rw [hq] at hop he
    rw [hc] at hl he
    exact ⟨_, coreTurn_enc hop hl he, (encStep_seq_congr hq hc).symm⟩
  · rw [State.round, State.rounds] at he
    rw [hq] at hop he
    rw [hc] at hl he
    exact ⟨_, coreTurn_dec hop hl he, (decStep_seq_congr hq hc).symm⟩

end

/-- Settles O26: the position by `coreTurn_seq_congr`, and the core never writes `CFG`. -/
theorem controlIndependentOfData : Obligations.ControlIndependentOfData := by
  intro s s' t hq hc h
  obtain ⟨t', ht', hseq⟩ := coreTurn_seq_congr hq hc h
  obtain ⟨-, -, -, -, hcfg, -⟩ := coreTurn_keeps h
  obtain ⟨-, -, -, -, hcfg', -⟩ := coreTurn_keeps ht'
  exact ⟨t', ht', hseq, hcfg'.trans (hc.symm.trans hcfg.symm)⟩

end Sys2Proof.Machine
end

section
/-! PROOFS. The two functions of R97 and R98 undo each other's rounds (spec/44_cipher_orchestration.md R99). -/

namespace Sys2Proof.Machine

/-- R81, column by column. -/
theorem invMixColumns_mixColumns (s : Block) : invMixColumns (mixColumns s) = s :=
  block_ext_column fun c => by rw [column_invMixColumns, column_mixColumns, invMixColumn_mixColumn]

/-- A decrypt round takes the shifted rows of an encrypt round's result to those of its argument. -/
theorem decRound_encRound (w : List Word) (round : Nat) (s : Block) :
    decRound w round (shiftRows (subBytes (encRound w round s))) = shiftRows (subBytes s) := by
  rw [decRound, invShiftRows_shiftRows, invSubBytes_subBytes, encRound, addRoundKey_addRoundKey,
    invMixColumns_mixColumns]

theorem decRounds_encRounds (w : List Word) (n : Nat) (s : Block) :
    decRounds w n (shiftRows (subBytes (encRounds w n s))) = shiftRows (subBytes s) := by
  induction n with
  | zero => rfl
  | succ n ih => rw [decRounds, encRounds, decRound_encRound, ih]

/-- Settles O41: the last round key, the rounds and the first round key are undone in this order. -/
theorem decryptInvertsEncrypt : Obligations.DecryptInvertsEncrypt := by
  intro nk nr key block _ _
  rw [inverseCipher, cipher, addRoundKey_addRoundKey, decRounds_encRounds, invShiftRows_shiftRows,
    invSubBytes_subBytes, addRoundKey_addRoundKey]

end Sys2Proof.Machine
end

section
/-! PROOFS. Whole commands: the turns of the core compose to the functions of R97 and R98, take `4 Nr + 2` turns, and the
result depends on the operands only (spec/44_cipher_orchestration.md R95 to R98, R106, R109). -/

namespace Sys2Proof.Machine

/-! ### The rounds as turns of the core -/

@[simp] theorem advance_rounds (s : State) (b : Block) (q : SeqPos) : (s.advance b q).rounds = s.rounds := rfl

@[simp] theorem advance_advance (s : State) (b b' : Block) (q q' : SeqPos) :
    (s.advance b q).advance b' q' = s.advance b' q' := rfl

@[simp] theorem advance_roundKeyAt (s : State) (b : Block) (q : SeqPos) (r : Nat) :
    (s.advance b q).roundKeyAt r = s.roundKeyAt r := rfl

/-- What step `STORE` makes of a state when `ST` holds the block `b`. -/
def State.completed (s : State) (b : Block) : State := storeStep (s.advance b s.seq)

/-- A round number of a legal pair fits in `SEQ.RND`. -/
theorem toNat_rnd {r : Nat} (hr : r ≤ 14) : (BitVec.ofNat 4 r).toNat = r := Nat.mod_eq_of_lt (by omega)

section
variable {s : State} (hl : LegalSizes s.cfg.nkl.toNat s.cfg.nrl.toNat)
include hl

theorem rounds_of_legalSizes : 10 ≤ s.rounds ∧ s.rounds ≤ 14 := rounds_of_legalPair ((legalPair_iff_sizes _ _).2 hl)

/-- The completion, at any position `STORE`. -/
theorem coreTurn_completed {op : SeqOp} (hop : op ≠ .none) (r : BitVec 4) (b : Block) :
    coreTurn (s.advance b ⟨op, .store, r⟩) = .next (s.completed b) :=
  coreTurn_store (s := s.advance b ⟨op, .store, r⟩) hl hop rfl

section
variable {w : List Word} (hw : ∀ r ≤ s.rounds, s.roundKeyAt r = roundKey w r)

/-- R102: the two turns that every encrypt round begins with. -/
theorem coreTurns_encSub_encShift {r : Nat} (h1 : 1 ≤ r) (hr : r ≤ s.rounds) (b : Block) :
    coreTurns 2 (s.advance b ⟨.enc, .sub, BitVec.ofNat 4 r⟩) =
      .next (s.advance (shiftRows (subBytes b)) ⟨.enc, if r < s.rounds then .mix else .add, BitVec.ofNat 4 r⟩) := by
  have hrnd : (BitVec.ofNat 4 r).toNat = r := toNat_rnd (hr.trans (rounds_of_legalSizes hl).2)
  have hsub := coreTurn_encSub (s := s.advance b ⟨.enc, .sub, BitVec.ofNat 4 r⟩) hl
    (hrnd.symm ▸ h1) (hrnd.symm ▸ hr) rfl
  have hshift := coreTurn_encShift (s := s.advance (subBytes b) ⟨.enc, .shift, BitVec.ofNat 4 r⟩) hl
    (hrnd.symm ▸ h1) (hrnd.symm ▸ hr) rfl
  simp only [hrnd, advance_advance, advance_st, advance_rounds] at hsub hshift
  exact (coreTurns_succ hsub).trans (coreTurns_succ hshift)

/-- R103: the last turn of a decrypt round with mixing. -/
theorem coreTurn_decMix_advance {q : BitVec 4} (h1 : 1 ≤ q.toNat) (hn : q.toNat < s.rounds) (b : Block) :
    coreTurn (s.advance b ⟨.dec, .mix, q⟩) = .next (s.advance (invMixColumns b) ⟨.dec, .shift, q - 1⟩) :=
  coreTurn_decMix (s := s.advance b ⟨.dec, .mix, q⟩) hl hn h1 rfl

include hw

/-- R102: the last turn of every encrypt round. -/
theorem coreTurn_encAdd_advance {r : Nat} (h1 : 1 ≤ r) (hr : r ≤ s.rounds) (b : Block) :
    coreTurn (s.advance b ⟨.enc, .add, BitVec.ofNat 4 r⟩) =
      .next (s.advance (addRoundKey b (roundKey w r))
        (if r < s.rounds then ⟨.enc, .sub, BitVec.ofNat 4 (r + 1)⟩ else ⟨.enc, .store, BitVec.ofNat 4 r⟩)) := by
  have hrnd : (BitVec.ofNat 4 r).toNat = r := toNat_rnd (hr.trans (rounds_of_legalSizes hl).2)
  have hnext : BitVec.ofNat 4 r + 1 = BitVec.ofNat 4 (r + 1) := (BitVec.ofNat_add ..).symm
  have hadd := coreTurn_encAdd (s := s.advance b ⟨.enc, .add, BitVec.ofNat 4 r⟩) hl
    (hrnd.symm ▸ h1) (hrnd.symm ▸ hr) rfl
  simpa only [hrnd, hnext, advance_advance, advance_st, advance_rounds, advance_roundKeyAt, hw r hr] using hadd

/-- R102: the four turns of a round with mixing are a round of R97. -/
theorem coreTurns_encRound {r : Nat} (h1 : 1 ≤ r) (hr : r < s.rounds) (b : Block) :
    coreTurns 4 (s.advance b ⟨.enc, .sub, BitVec.ofNat 4 r⟩) =
      .next (s.advance (encRound w r b) ⟨.enc, .sub, BitVec.ofNat 4 (r + 1)⟩) := by
  have hrnd : (BitVec.ofNat 4 r).toNat = r := toNat_rnd (hr.le.trans (rounds_of_legalSizes hl).2)
  have hsubShift := coreTurns_encSub_encShift hl h1 hr.le b
  have hmix := coreTurn_encMix (s := s.advance (shiftRows (subBytes b)) ⟨.enc, .mix, BitVec.ofNat 4 r⟩) hl
    (hrnd.symm ▸ h1) (hrnd.symm ▸ hr.le) rfl
  have hadd := coreTurn_encAdd_advance hl hw h1 hr.le (mixColumns (shiftRows (subBytes b)))
  rw [if_pos hr] at hsubShift hadd
  rw [advance_advance, advance_st] at hmix
  exact (coreTurns_add (n := 2) hsubShift).trans ((coreTurns_succ hmix).trans (coreTurns_succ hadd))

theorem coreTurns_encRounds {n : Nat} (hn : n < s.rounds) (b : Block) :
    coreTurns (4 * n) (s.advance b ⟨.enc, .sub, 1⟩) =
      .next (s.advance (encRounds w n b) ⟨.enc, .sub, BitVec.ofNat 4 (n + 1)⟩) := by
  induction n with
  | zero => rfl
  | succ n ih =>
    rw [Nat.mul_succ, coreTurns_add (ih (Nat.lt_of_succ_lt hn)), coreTurns_encRound hl hw (Nat.le_add_left 1 n) hn,
      encRounds]

/-- R102, R104: the final round omits column mixing, and the completion follows it. -/
theorem coreTurns_encFinal (b : Block) :
    coreTurns 4 (s.advance b ⟨.enc, .sub, BitVec.ofNat 4 s.rounds⟩) =
      .next (s.completed (addRoundKey (shiftRows (subBytes b)) (roundKey w s.rounds))) := by
  have h1 : 1 ≤ s.rounds := (rounds_of_legalSizes hl).1.trans' (by decide)
  have hsubShift := coreTurns_encSub_encShift hl h1 le_rfl b
  have hadd := coreTurn_encAdd_advance hl hw h1 le_rfl (shiftRows (subBytes b))
  rw [if_neg (lt_irrefl _)] at hsubShift hadd
  exact (coreTurns_add (n := 2) hsubShift).trans
    ((coreTurns_succ hadd).trans (coreTurns_succ (coreTurn_completed hl SeqOp.noConfusion _ _)))

/-- R103: the three turns that every decrypt round begins with. -/
theorem coreTurns_decShift_decSub_decAdd {r : Nat} (hr : r < s.rounds) (b : Block) :
    coreTurns 3 (s.advance b ⟨.dec, .shift, BitVec.ofNat 4 r⟩) =
      .next (s.advance (addRoundKey (invSubBytes (invShiftRows b)) (roundKey w r))
        (if 1 ≤ r then ⟨.dec, .mix, BitVec.ofNat 4 r⟩ else ⟨.dec, .store, 0⟩)) := by
  have hrnd : (BitVec.ofNat 4 r).toNat = r := toNat_rnd (hr.le.trans (rounds_of_legalSizes hl).2)
  have hn : (BitVec.ofNat 4 r).toNat < s.rounds := hrnd.symm ▸ hr
  have hshift := coreTurn_decShift (s := s.advance b ⟨.dec, .shift, BitVec.ofNat 4 r⟩) hl hn rfl
  have hsub := coreTurn_decSub (s := s.advance (invShiftRows b) ⟨.dec, .sub, BitVec.ofNat 4 r⟩) hl hn rfl
  have hadd := coreTurn_decAdd
    (s := s.advance (invSubBytes (invShiftRows b)) ⟨.dec, .add, BitVec.ofNat 4 r⟩) hl hn rfl
  simp only [hrnd, advance_advance, advance_st, advance_roundKeyAt, hw r hr.le] at hshift hsub hadd
  exact (coreTurns_succ hshift).trans ((coreTurns_succ hsub).trans (coreTurns_succ hadd))

/-- R103: the four turns of a round with mixing are a round of R98. -/
theorem coreTurns_decRound {r : Nat} (hr : r + 1 < s.rounds) (b : Block) :
    coreTurns 4 (s.advance b ⟨.dec, .shift, BitVec.ofNat 4 (r + 1)⟩) =
      .next (s.advance (decRound w (r + 1) b) ⟨.dec, .shift, BitVec.ofNat 4 r⟩) := by
  have hrnd : (BitVec.ofNat 4 (r + 1)).toNat = r + 1 := toNat_rnd (hr.le.trans (rounds_of_legalSizes hl).2)
  have hn : (BitVec.ofNat 4 (r + 1)).toNat < s.rounds := by rw [hrnd]; exact hr
  have h1 : 1 ≤ (BitVec.ofNat 4 (r + 1)).toNat := by rw [hrnd]; exact Nat.le_add_left 1 r
  have hnext : BitVec.ofNat 4 (r + 1) - 1 = BitVec.ofNat 4 r := by
    rw [BitVec.ofNat_add]; exact BitVec.add_sub_cancel _ _
  have hshiftSubAdd := coreTurns_decShift_decSub_decAdd hl hw hr b
  have hmix := coreTurn_decMix_advance hl h1 hn (addRoundKey (invSubBytes (invShiftRows b)) (roundKey w (r + 1)))
  rw [if_pos (Nat.le_add_left 1 r)] at hshiftSubAdd
  rw [hnext] at hmix
  exact (coreTurns_add (n := 1) hshiftSubAdd).trans (coreTurns_succ hmix)

theorem coreTurns_decRounds {n : Nat} (hn : n < s.rounds) (b : Block) :
    coreTurns (4 * n) (s.advance b ⟨.dec, .shift, BitVec.ofNat 4 n⟩) =
      .next (s.advance (decRounds w n b) ⟨.dec, .shift, 0⟩) := by
  induction n generalizing b with
  | zero => rfl
  | succ n ih =>
    rw [Nat.mul_succ, Nat.add_comm, coreTurns_add (coreTurns_decRound hl hw hn b), ih (Nat.lt_of_succ_lt hn),
      decRounds]

/-- R103, R104: round 0 omits column mixing, and the completion follows it. -/
theorem coreTurns_decFinal (b : Block) :
    coreTurns 4 (s.advance b ⟨.dec, .shift, 0⟩) =
      .next (s.completed (addRoundKey (invSubBytes (invShiftRows b)) (roundKey w 0))) := by
  have h0 : 0 < s.rounds := (rounds_of_legalSizes hl).1.trans_lt' (by decide)
  have hshiftSubAdd := coreTurns_decShift_decSub_decAdd hl hw h0 b
  rw [if_neg (by decide)] at hshiftSubAdd
  exact (coreTurns_add (n := 1) hshiftSubAdd).trans
    (coreTurns_succ (coreTurn_completed hl SeqOp.noConfusion _ _))

end

/-! ### From `INIT` to the completion -/

section
variable (hw : ∀ r ≤ s.rounds, s.roundKeyAt r = roundKey s.commandSchedule r)
include hw

/-- R97: from `INIT` on, the turns of a `CIPHER` command are `cipher`. -/
theorem coreTurns_of_encInit (hq : s.seq = ⟨.enc, .init, 0⟩) :
    coreTurns (4 * s.rounds + 1) s =
      .next (s.completed (cipher s.din s.cfg.nkl.toNat s.rounds (operandKey s.cfg.nkl.toNat s.key))) := by
  obtain ⟨h10, -⟩ := rounds_of_legalSizes hl
  have hlast : s.rounds - 1 + 1 = s.rounds := by omega
  have hturns : 4 * s.rounds = 4 * (s.rounds - 1) + 4 := by omega
  have hrounds := coreTurns_encRounds hl hw (n := s.rounds - 1) (by omega)
    (addRoundKey s.din (roundKey s.commandSchedule 0))
  rw [hlast] at hrounds
  rw [coreTurns_succ (coreTurn_encInit hl hq), hw 0 (Nat.zero_le _), hturns, coreTurns_add hrounds,
    coreTurns_encFinal hl hw]
  rfl

/-- R98: from `INIT` on, the turns of an `INVCIPHER` command are `inverse_cipher`. -/
theorem coreTurns_of_decInit (hq : s.seq = ⟨.dec, .init, 0⟩) :
    coreTurns (4 * s.rounds + 1) s =
      .next (s.completed (inverseCipher s.din s.cfg.nkl.toNat s.rounds (operandKey s.cfg.nkl.toNat s.key))) := by
  obtain ⟨h10, -⟩ := rounds_of_legalSizes hl
  have hturns : 4 * s.rounds = 4 * (s.rounds - 1) + 4 := by omega
  have hrounds := coreTurns_decRounds hl hw (n := s.rounds - 1) (by omega)
    (addRoundKey s.din (roundKey s.commandSchedule s.rounds))
  rw [coreTurns_succ (coreTurn_decInit hl hq), hw _ le_rfl, hturns, coreTurns_add hrounds, coreTurns_decFinal hl hw]
  rfl

end

end

/-! ### From acceptance to the completion -/

/-- R95, R96: the function that a command computes. -/
def commandResult : Instr → Block → Nat → Nat → List Byte → Block
  | .cipher => cipher
  | .invcipher => inverseCipher

/-- R89: the round keys read from `KS` are those of the schedule it holds. -/
theorem ScheduleHeld.roundKeyAt {s : State} (hs : ScheduleHeld s) (hf : inFlight s = true)
    (hp : s.seq.phase ≠ .expand) {r : Nat} (hr : r ≤ s.rounds) : s.roundKeyAt r = roundKey s.commandSchedule r := by
  refine Vector.ext fun i hi => ?_
  have hword : wordAt s.ks.toList (4 * r + i / 4) = wordAt s.commandSchedule (4 * r + i / 4) :=
    hs hf hp _ (by rw [scheduleLength]; omega)
  simp only [State.roundKeyAt, roundKey_getElem, hword]

theorem opOf_ne_none (i : Instr) : opOf i ≠ .none := by cases i <;> exact SeqOp.noConfusion

/-- R95, R96: the `4 Nr + 2` turns from `EXPAND` on compute the command's function of the operands. -/
theorem coreTurns_of_expand (i : Instr) {s : State} (hl : LegalSizes s.cfg.nkl.toNat s.cfg.nrl.toNat)
    (hq : s.seq = ⟨opOf i, .expand, 0⟩) :
    coreTurns (4 * s.rounds + 2) s = .next ((expandStep s).completed
      (commandResult i s.din s.cfg.nkl.toNat s.rounds (operandKey s.cfg.nkl.toNat s.key))) := by
  have hseq : (expandStep s).seq = ⟨opOf i, .init, 0⟩ := by rw [expandStep_seq, hq]
  have hf : inFlight (expandStep s) = true := (inFlight_iff _).2 (by rw [hseq]; exact opOf_ne_none i)
  have hw : ∀ r ≤ (expandStep s).rounds, (expandStep s).roundKeyAt r = roundKey (expandStep s).commandSchedule r :=
    fun r => (scheduleHeld_expandStep ((legalPair_iff_sizes _ _).2 hl)).roundKeyAt hf
      (by rw [hseq]; exact Phase.noConfusion)
  have hl' : LegalSizes (expandStep s).cfg.nkl.toNat (expandStep s).cfg.nrl.toNat := by rw [expandStep_cfg]; exact hl
  rw [coreTurns_succ (coreTurn_expand hl (opOf_ne_none i) hq)]
  cases i with
  | cipher =>
    have hrun := coreTurns_of_encInit hl' hw hseq
    rwa [State.rounds, expandStep_cfg, expandStep_din, expandStep_key] at hrun
  | invcipher =>
    have hrun := coreTurns_of_decInit hl' hw hseq
    rwa [State.rounds, expandStep_cfg, expandStep_din, expandStep_key] at hrun

theorem inFlight_of_turnsLeft_pos {s : State} (h : 0 < turnsLeft s) : inFlight s = true := by
  refine (inFlight_iff s).2 fun hop => ?_
  rw [turnsLeft, hop] at h
  exact absurd h (lt_irrefl 0)

/-- R106: until the last of the turns left a command is in flight, with its flags and `DOUT` as they were. -/
theorem Inv.coreTurns_before_completion {k : Nat} {s : State} (hi : Inv s) (hk : k < turnsLeft s) :
    ∃ m, coreTurns k s = .next m ∧ m.status = s.status ∧ m.dout = s.dout := by
  induction k generalizing s with
  | zero => exact ⟨s, rfl, rfl, rfl⟩
  | succ k ih =>
    have hf := inFlight_of_turnsLeft_pos (Nat.zero_lt_of_lt hk)
    obtain ⟨t, ht⟩ := hi.coreTurn_answers
    have hleft := hi.coreTurn_turnsLeft hf ht
    have hkt : k < turnsLeft t := by omega
    rcases coreTurn_result ht with ⟨hn, -⟩ | ⟨-, -, rfl⟩ | ⟨-, -, hdout, hstatus⟩
    · exact nomatch hf.symm.trans hn
    · exact absurd hkt (Nat.not_lt_zero k)
    · obtain ⟨m, hm, hms, hmd⟩ := ih (coreTurn_keeps_inv hi ht) hkt
      exact ⟨m, (coreTurns_succ ht).trans hm, hms.trans hstatus, hmd.trans hdout⟩

/-- R95 to R98, R106: a command from its `CMD` write to its completion. -/
theorem command_computes (i : Instr) {s : State} (hb : s.status.busy = false) (hv : ValidOperands s) :
    ∃ (t : State) (ks : Schedule), exec i s = .next t ∧
      coreTurns (4 * s.nrNat + 2) t = .next { s with
        dout := commandResult i s.din s.nkNat s.nrNat s.keyNow
        st := commandResult i s.din s.nkNat s.nrNat s.keyNow
        ks := ks
        cfg := ⟨s.nk, s.nr⟩
        status := ⟨false, true, .none⟩
        seq := .atRest } ∧
      ∀ k, k < 4 * s.nrNat + 2 →
        ∃ m, coreTurns k t = .next m ∧ m.status = ⟨true, false, .none⟩ ∧ m.dout = s.dout := by
  have hpair : legalPair s.nk s.nr = true := (legalPair_iff_validOperands s).2 hv
  have hi := inv_accepted hpair (opOf_ne_none i)
  refine ⟨_, _, exec_of_valid i hb hv, coreTurns_of_expand i ((legalPair_iff_sizes _ _).1 hpair) rfl, fun k hk => ?_⟩
  refine hi.coreTurns_before_completion (hk.trans_eq ?_)
  cases i <;> rfl

/-- Settles O43: `command_computes` for `CIPHER`. -/
theorem cipherCommandComputesCipher : Obligations.CipherCommandComputesCipher := fun _ => command_computes .cipher

/-- Settles O44: `command_computes` for `INVCIPHER`. -/
theorem invcipherCommandComputesInverse : Obligations.InvcipherCommandComputesInverse :=
  fun _ => command_computes .invcipher

/-! ### What the result depends on -/

/-- What a completed command leaves in `DOUT`, and that it sets `DONE`. -/
theorem command_result {i : Instr} {s t u : State} (hb : s.status.busy = false) (hv : ValidOperands s)
    (ht : exec i s = .next t) (hu : coreTurns (4 * s.nrNat + 2) t = .next u) :
    u.dout = commandResult i s.din s.nkNat s.nrNat s.keyNow ∧ u.status.done = true := by
  obtain ⟨t', ks, ht', hrun, -⟩ := command_computes i hb hv
  obtain rfl := next_unique ht ht'
  rw [next_unique hu hrun]
  exact ⟨rfl, rfl⟩

/-- R14: the operand key is the first `4 Nk` bytes of `KEY`. -/
theorem operandKey_congr {nk : Nat} {k k' : KeyReg} (h : ∀ j : Fin 32, j.val < 4 * nk → k'[j] = k[j]) :
    operandKey nk k' = operandKey nk k := by
  refine List.ext_getElem (by simp [operandKey]) fun j hj _ => ?_
  have hlen : j < 4 * nk ∧ j < 32 := by simpa [operandKey] using hj
  simpa [operandKey] using h ⟨j, hlen.2⟩ hlen.1

/-- Settles O45: both results are the command's function of the same operands. -/
theorem resultDependsOnOperandsOnly : Obligations.ResultDependsOnOperandsOnly := by
  intro i s s' t t' u u' hb hb' hv hnk hnr hdin hkey ht ht' hu hu'
  have hv' : ValidOperands s' := by rw [ValidOperands, hnk, hnr]; exact hv
  have hkeys : s'.keyNow = s.keyNow := by rw [State.keyNow, State.nkNat, hnk]; exact operandKey_congr hkey
  obtain ⟨hdout, hdone⟩ := command_result hb hv ht hu
  obtain ⟨hdout', hdone'⟩ := command_result hb' hv' ht' (by rw [State.nrNat, hnr]; exact hu')
  refine ⟨?_, hdone, hdone'⟩
  rw [hdout', hdout, hkeys, hdin, State.nkNat, State.nrNat, hnk, hnr]

end Sys2Proof.Machine
end

section
/-! PROOFS. The errors: the two a command with illegal operands raises, what a rejection leaves, that an error code stays
until the next command or reset, and that no step stops the machine (spec/60_exceptions.md R113, R114, R116, R118,
R119). -/

namespace Sys2Proof.Machine

/-! ### The two operand errors -/

/-- Settles O11: the check of `NK` is the first of the operand checks. -/
theorem keyLengthError : Obligations.KeyLengthError := by
  intro i s hb h4 h6 h8
  rw [exec_eq, startCommand_of_idle _ hb, if_pos ⟨h4, h6, h8⟩]

/-- Settles O12: the check of `NK` passes and that of `NR` fails. -/
theorem roundCountError : Obligations.RoundCountError := by
  intro i s hb hnk hnr
  have hlegal : ¬ (s.nk ≠ 4 ∧ s.nk ≠ 6 ∧ s.nk ≠ 8) := by simpa only [← not_or, not_not] using hnk
  rw [exec_eq, startCommand_of_idle _ hb, if_neg hlegal, if_pos hnr]

/-! ### A rejection -/

/-- R118: a write of `CMD` that begins and ends idle is a rejection, which changes `STATUS` only. -/
theorem command_rejected {v : Byte} {s t : State} (hb : s.status.busy = false) (h : command v s = .next t)
    (ht : t.status.busy = false) : ∃ e, t = { s with status := ⟨false, false, e⟩ } := by
  obtain ⟨u, hu, hc⟩ := command_cases v s
  obtain rfl := next_unique hu h
  rcases hc with ⟨hbusy, -⟩ | ⟨-, e, -, rfl⟩ | ⟨-, -, op, -, rfl⟩
  · exact nomatch hbusy.symm.trans hb
  · exact ⟨e, rfl⟩
  · exact nomatch ht

/-- R117, R118: the code a rejection leaves is that of the first check that fails. -/
theorem command_rejected_err {v : Byte} {s t : State} (hb : s.status.busy = false) (h : command v s = .next t)
    (ht : t.status.busy = false) :
    t.status.err =
      if v ≠ 0x01 ∧ v ≠ 0x02 then .cmd else if s.nk ≠ 4 ∧ s.nk ≠ 6 ∧ s.nk ≠ 8 then .keylen else .rounds := by
  rw [command_status hb h] at ht ⊢
  split_ifs at ht ⊢ <;> rfl

/-- Settles O14: the code by `command_rejected_err`, the byte by `Status.toByte_fields`, the rest by
`command_rejected`. -/
theorem rejectionIsPrecise : Obligations.RejectionIsPrecise := by
  intro s t v hi hb h ht
  obtain ⟨-, -, hcode, -⟩ := Status.toByte_fields t.status
  refine ⟨command_rejected_err hb h ht, hcode, ?_⟩
  obtain ⟨e, rfl⟩ := command_rejected hb h ht
  exact ⟨rfl, hi.atRest_of_idle hb, rfl⟩

/-! ### An error code stays -/

/-- Settles O57: with an error code no command is in flight, so the step is no completion and none of the events of
R20. -/
theorem errorCodePersists : Obligations.ErrorCodePersists := by
  intro s t hi h hcmd hreset herr
  refine step_status_of_no_event h (.inl hcmd) (fun ⟨_, hf, _⟩ => ?_) hreset
  exact herr (hi.err_none_of_inFlight hf)

/-! ### No step stops -/

/-- Settles O50: a turn of the core answers under the invariant, a turn of the host always. -/
theorem noStepStops : Obligations.NoStepStops := by
  intro s hi
  rcases agent_cases s with ha | ha
  · rw [step_of_core ha]
    exact (hi.of_sameCore (sameCore_popTurn s)).coreTurn_answers
  · rw [step_of_host ha]
    obtain ⟨t, ht, -⟩ := hostTurn_cases (popTurn s)
    exact ⟨t, ht⟩

end Sys2Proof.Machine
end

section
/-! PROOFS. Reset and the idle core: with no command in flight the core waits, and reset leaves it so from every state
(spec/70_reset_and_hazards.md R123, R124). -/

namespace Sys2Proof.Machine

/-! ### The idle core -/

theorem coreTurn_of_idle {s : State} (h : inFlight s = false) : coreTurn s = .next s := by
  have hop : s.seq.op = .none := by simpa [inFlight] using h
  rw [coreTurn, hop]

/-- Past the end of the schedule an idle core leaves the turn to the host. -/
theorem nextAgent_of_idle {s : State} (h : inFlight s = false) (hs : s.env.sched = []) : nextAgent s = .host := by
  rw [nextAgent, hs, h]; rfl

/-- Past the end of the schedule a turn consumes no entry. -/
theorem popTurn_of_unscheduled {s : State} (hs : s.env.sched = []) : popTurn s = s := by
  have htail : s.env.sched.tail = s.env.sched := by rw [hs]; rfl
  rw [popTurn, htail]

/-- Settles O25: the core's turn is idle; the step is the turn of a host with nothing to do, and it consumes nothing. -/
theorem idleCoreWaits : Obligations.IdleCoreWaits := by
  refine fun s hidle => ⟨coreTurn_of_idle hidle, fun hhost hsched => ?_⟩
  rw [step_of_host_done (nextAgent_of_idle hidle hsched) hhost, popTurn_of_unscheduled hsched]

/-! ### Reset at any time -/

/-- Reset abandons the command in flight. -/
theorem inFlight_resetCore (s : State) : inFlight (resetCore s) = false := rfl

/-- Settles O55: the step is the reset (`step_of_reset`), whose fields are those of `resetCore`, and the core is idle
after it. -/
theorem resetActionEffect : Obligations.ResetActionEffect := fun s h =>
  ⟨resetCore (afterFetch s), step_of_reset h, resetCore_din _, resetCore_key _, resetCore_dout _, resetCore_nk _,
    resetCore_nr _, resetCore_status _, resetCore_seq _, coreTurn_of_idle (inFlight_resetCore _)⟩

end Sys2Proof.Machine
end

section
/-! PROOFS. Encryption undoes decryption, the converse of R99: `inverse_cipher` applies the rounds from the last to the
first, so here the encrypt rounds undo them from the first to the last (spec/44_cipher_orchestration.md R97 to R99). -/

namespace Sys2Proof.Machine

/-- R81 in the other order, column by column. -/
theorem mixColumns_invMixColumns (s : Block) : mixColumns (invMixColumns s) = s :=
  block_ext_column fun c => by rw [column_mixColumns, column_invMixColumns, mixColumn_invMixColumn]

/-- An encrypt round takes the unshifted rows of a decrypt round's result to those of its argument. -/
theorem encRound_decRound (w : List Word) (round : Nat) (s : Block) :
    encRound w round (invSubBytes (invShiftRows (decRound w round s))) = invSubBytes (invShiftRows s) := by
  rw [encRound, subBytes_invSubBytes, shiftRows_invShiftRows, decRound, mixColumns_invMixColumns,
    addRoundKey_addRoundKey]

/-- The block varies in the induction: `decRounds` applies its highest round before the others. -/
theorem encRounds_decRounds (w : List Word) (n : Nat) (s : Block) :
    encRounds w n (invSubBytes (invShiftRows (decRounds w n s))) = invSubBytes (invShiftRows s) := by
  induction n generalizing s with
  | zero => rfl
  | succ n ih => rw [encRounds, decRounds, ih, encRound_decRound]

/-- Settles O42: the first round key, the rounds and the last round key are undone in this order. -/
theorem encryptInvertsDecrypt : Obligations.EncryptInvertsDecrypt := by
  intro nk nr key block _ _
  rw [cipher, inverseCipher, addRoundKey_addRoundKey, encRounds_decRounds, subBytes_invSubBytes,
    shiftRows_invShiftRows, addRoundKey_addRoundKey]

end Sys2Proof.Machine
end
